-- ==== Sys2Proof/Word.lean ====
section
/-! DEFINITION. The value types of the engine (00_scope.md R4, R6, R7): every value is an unsigned bit vector
of a stated width. A command as the host presents it (30_encoding.md R70). The quadruple of ARX words. -/

namespace Sys2Proof

/-- A 64-bit word: V0..V3, K0, K1, message words, digest (00_scope.md R4). -/
abbrev Word := BitVec 64

/-- An unsigned 8-bit byte (20_memory.md R53). -/
abbrev Byte := BitVec 8

/-- A command header (30_encoding.md R70). -/
abbrev Hdr := BitVec 16

/-- The 128-bit data operand of a command (30_encoding.md R70). -/
abbrev Data := BitVec 128

/-- The four ARX words v0..v3 (10_state.md R21). -/
structure Arx where
  v0 : Word
  v1 : Word
  v2 : Word
  v3 : Word
  deriving DecidableEq, Repr

/-- A command as presented: header and data together (30_encoding.md R70). -/
structure Command where
  hdr  : Hdr
  data : Data
  deriving DecidableEq, Repr

end Sys2Proof
end

