-- ==== Sys2Proof/Config.lean ====
section
/-! DEFINITION. The free values of the engine. 10_state.md R30 and R31, 43_pad_final.md R144 and 70_reset_and_hazards.md
R200 leave the content of some registers unspecified after FIN and after reset; 93_implementation_defined.md S1 asks for a
fresh arbitrary value. Each constant below has no body, so nothing can be proved of its value: a theorem about a state
that holds one holds whatever the hardware leaves there.
The first argument is the draw number (State.draws), so that no two draws are tied to each other; the second is what the
register held, so that an implementation that leaves, clears or scrambles it is covered alike (DESIGN CHOICE, log 4).
The hardware has no other configuration: 00_scope.md R4 fixes every parameter but the number of instances
(R5; Machine/System.lean). -/

namespace Sys2Proof

/-- What V0 holds where the spec leaves it unspecified (10_state.md R30). -/
opaque Config.freeV0 : Nat → Word → Word

/-- What V1 holds where the spec leaves it unspecified (10_state.md R30). -/
opaque Config.freeV1 : Nat → Word → Word

/-- What V2 holds where the spec leaves it unspecified (10_state.md R30). -/
opaque Config.freeV2 : Nat → Word → Word

/-- What V3 holds where the spec leaves it unspecified (10_state.md R30). -/
opaque Config.freeV3 : Nat → Word → Word

/-- What K0 holds where the spec leaves it unspecified (10_state.md R30). -/
opaque Config.freeK0 : Nat → Word → Word

/-- What K1 holds where the spec leaves it unspecified (10_state.md R30). -/
opaque Config.freeK1 : Nat → Word → Word

/-- What LEN8 holds where the spec leaves it unspecified (10_state.md R30). -/
opaque Config.freeLen8 : Nat → Byte → Byte

end Sys2Proof
end

