-- ==== Sys2Proof/Syntax.lean ====
section
/-! DEFINITION. The commands of the engine as syntax: one constructor per row of spec/opcode_table.json
(30_encoding.md R74), its operands as 30_encoding.md R75 assembles them from the command's bits. -/

namespace Sys2Proof

/-- The seven commands (30_encoding.md R74). There is no other: SipRound and Compress cannot be invoked on their own
(41_arx_round.md R117), HASHW and HASHB are sequences the host issues (30_encoding.md R82). -/
inductive Instr where
  /-- KEYW: load the key from two words `k0`, `k1` (40_key.md R100). -/
  | keyw (k0 k1 : Word)
  /-- KEYB: load the key from bytes. `n` is the number of bytes the host says it supplies; `kb` is the sixteen byte
  lanes, looked at only when `n` is 16 (40_key.md R101). -/
  | keyb (n : Byte) (kb : Data)
  /-- INIT: initialize the ARX state from the key (42_init_compress.md R131). -/
  | init
  /-- CMPW: compress the full message word `m` (42_init_compress.md R132). -/
  | cmpw (m : Word)
  /-- CMPL: compress the final word. `r` is the number of tail bytes, `t` the tail word: tail byte j in its bits
  8j+7..8j (43_pad_final.md R141). -/
  | cmpl (r : BitVec 3) (t : Word)
  /-- FIN: finalize and answer the digest (43_pad_final.md R143). -/
  | fin
  /-- STAT: answer the status (44_system_and_composite.md R150). -/
  | stat
  deriving DecidableEq, Repr

end Sys2Proof
end

