-- ==== Sys2Proof/WellFormed.lean ====
section
/-! DEFINITION. Well-formed commands: the operands hold nothing on lanes that 30_encoding.md R75 does not assemble. The
widths of the operands are in their types; what remains is that an unused lane (R78) is written as zero, as in the
syntax of R81. Every command the decoder gives is well formed. -/

namespace Sys2Proof

/-- The sixteen lanes of KEYB carry something only when n is 16: "When n is not 16 no key word is assembled and the lanes
are not looked at" (30_encoding.md R75). -/
def keyLanesOk (n : Byte) (kb : Data) : Bool := n == 16 || kb == 0

/-- The tail word of CMPL has r bytes: lanes r..7 are zero (30_encoding.md R75). -/
def tailFits (r : BitVec 3) (t : Word) : Bool := decide (t.toNat < 2 ^ (8 * r.toNat))

/-- A command whose unused lanes are zero. -/
def Instr.wellFormed : Instr → Bool
  | .keyw _ _  => true
  | .keyb n kb => keyLanesOk n kb
  | .init      => true
  | .cmpw _    => true
  | .cmpl r t  => tailFits r t
  | .fin       => true
  | .stat      => true

end Sys2Proof
end

