-- ==== Sys2Proof/Decode.lean ====
section
/-! DEFINITION. Decoding and encoding of commands (30_encoding.md R70 to R78, R81). The decoder is total on all
2^144 commands: it gives the command or names why the header is illegal. It assembles the operands as R75 says, which
drops every data bit that R78 calls unused (log 5). -/

namespace Sys2Proof

/-! ### Fields and lanes -/

/-- `op`, hdr[15:8] (30_encoding.md R71). -/
def opField (h : Hdr) : Byte := h.extractLsb' 8 8

/-- `arg`, hdr[7:0] (30_encoding.md R71). -/
def argField (h : Hdr) : Byte := h.extractLsb' 0 8

/-- `r`, hdr[2:0] (30_encoding.md R73, format T). -/
def tailCount (h : Hdr) : BitVec 3 := h.extractLsb' 0 3

/-- Lane i of a data operand: data[8i+7:8i], for i = 0..15 (30_encoding.md R72). -/
def lane (d : Data) (i : Nat) : Byte := d.extractLsb' (8 * i) 8

/-- data[63:0], lanes 0..7 (30_encoding.md R72). -/
def lowWord (d : Data) : Word := d.extractLsb' 0 64

/-- data[127:64], lanes 8..15 (30_encoding.md R72). -/
def highWord (d : Data) : Word := d.extractLsb' 64 64

/-- The mask 2^(8r) - 1 that keeps lanes 0..r-1 (30_encoding.md R75). -/
def tailMask (r : BitVec 3) : Word := BitVec.ofNat 64 (2 ^ (8 * r.toNat) - 1)

/-- The tail word: lanes 0..r-1 as presented, lanes r..7 forced to zero (30_encoding.md R75). -/
def tailWord (r : BitVec 3) (w : Word) : Word := w &&& tailMask r

/-- The key lanes of KEYB, not looked at when n is not 16 (30_encoding.md R75). -/
def keyLanes (n : Byte) (d : Data) : Data := if n = 16 then d else 0

/-- A byte sequence placed on the lanes, byte i on lane i, the lanes not listed written as 00 (30_encoding.md R72, R81). -/
def dataOfBytes : List Byte → Data
  | []      => 0
  | b :: bs => b.setWidth 128 ||| (dataOfBytes bs <<< 8)

/-! ### The opcode map -/

/-- A row of the opcode map (30_encoding.md R74): the header h selects the row when h & mask = match. -/
structure OpcodeRow where
  mnemonic  : String
  matchBits : Hdr
  mask      : Hdr
  deriving DecidableEq, Repr

/-- "a header h selects the row when h & mask = match" (30_encoding.md R74). -/
def OpcodeRow.selects (row : OpcodeRow) (h : Hdr) : Bool := (h &&& row.mask) == row.matchBits

def rowKeyw : OpcodeRow := ⟨"KEYW", 0x0100, 0xFFFF⟩
def rowKeyb : OpcodeRow := ⟨"KEYB", 0x0200, 0xFF00⟩
def rowInit : OpcodeRow := ⟨"INIT", 0x0300, 0xFFFF⟩
def rowCmpw : OpcodeRow := ⟨"CMPW", 0x0400, 0xFFFF⟩
def rowCmpl : OpcodeRow := ⟨"CMPL", 0x0500, 0xFFF8⟩
def rowFin  : OpcodeRow := ⟨"FIN",  0x0600, 0xFFFF⟩
def rowStat : OpcodeRow := ⟨"STAT", 0x0700, 0xFFFF⟩

/-- The opcode map, in the table's order (30_encoding.md R74). -/
def opcodeMap : List OpcodeRow := [rowKeyw, rowKeyb, rowInit, rowCmpw, rowCmpl, rowFin, rowStat]

/-- The row of the opcode map that a command belongs to. -/
def Instr.row : Instr → OpcodeRow
  | .keyw _ _ => rowKeyw
  | .keyb _ _ => rowKeyb
  | .init     => rowInit
  | .cmpw _   => rowCmpw
  | .cmpl _ _ => rowCmpl
  | .fin      => rowFin
  | .stat     => rowStat

/-! ### The decoder -/

/-- Why a header is illegal: the three cases of 30_encoding.md R76. -/
inductive IllegalHeader where
  /-- (a) `op` is 0x00 or any value 0x08 .. 0xFF. -/
  | reservedOpcode
  /-- (b) `op` is 0x01, 0x03, 0x04, 0x06 or 0x07 and `arg` is not 0x00. -/
  | nonzeroArgument
  /-- (c) `op` is 0x05 and hdr[7:3] is not 00000. -/
  | nonzeroTailBits
  deriving DecidableEq, Repr

/-- The case of 30_encoding.md R76 that an illegal header falls under. -/
def illegalCase (h : Hdr) : IllegalHeader :=
  if opField h = 0 then .reservedOpcode
  else if opField h = 5 then .nonzeroTailBits
  else if (opField h).toNat ≤ 7 then .nonzeroArgument
  else .reservedOpcode

/-- Which command a header and its data are (30_encoding.md R74), with the operands of R75. It depends on the data only
for the operands, never for legality (R70). -/
def decode (c : Command) : Except IllegalHeader Instr :=
  if rowKeyw.selects c.hdr then .ok (.keyw (lowWord c.data) (highWord c.data))
  else if rowKeyb.selects c.hdr then .ok (.keyb (argField c.hdr) (keyLanes (argField c.hdr) c.data))
  else if rowInit.selects c.hdr then .ok .init
  else if rowCmpw.selects c.hdr then .ok (.cmpw (lowWord c.data))
  else if rowCmpl.selects c.hdr then .ok (.cmpl (tailCount c.hdr) (tailWord (tailCount c.hdr) (lowWord c.data)))
  else if rowFin.selects c.hdr then .ok .fin
  else if rowStat.selects c.hdr then .ok .stat
  else .error (illegalCase c.hdr)

/-- The data bits that a command with header h uses (30_encoding.md R78 lists those it does not). -/
def usedDataMask (h : Hdr) : Data :=
  if rowKeyw.selects h then BitVec.allOnes 128
  else if rowKeyb.selects h then (if argField h = 16 then BitVec.allOnes 128 else 0)
  else if rowCmpw.selects h then BitVec.ofNat 128 (2 ^ 64 - 1)
  else if rowCmpl.selects h then (tailMask (tailCount h)).setWidth 128
  else 0

/-! ### The encoder -/

/-- The header of a command (30_encoding.md R81). -/
def Instr.hdr : Instr → Hdr
  | .keyw _ _ => 0x0100
  | .keyb n _ => 0x0200 + n.setWidth 16
  | .init     => 0x0300
  | .cmpw _   => 0x0400
  | .cmpl r _ => 0x0500 + r.setWidth 16
  | .fin      => 0x0600
  | .stat     => 0x0700

/-- The data of a command, unused bits written as 0 (30_encoding.md R81). -/
def Instr.data : Instr → Data
  | .keyw k0 k1 => k1 ++ k0
  | .keyb _ kb  => kb
  | .init       => 0
  | .cmpw m     => m.setWidth 128
  | .cmpl _ t   => t.setWidth 128
  | .fin        => 0
  | .stat       => 0

/-- The command a host presents for an instruction (30_encoding.md R81). -/
def encode (i : Instr) : Command := ⟨i.hdr, i.data⟩

/-! ### A command as one bit vector -/

/-- cmd[143:0] = hdr ‖ data (30_encoding.md R70). -/
def Command.bits (c : Command) : BitVec 144 := c.hdr ++ c.data

/-- hdr = cmd[143:128] and data = cmd[127:0] (30_encoding.md R70). -/
def commandOfBits (b : BitVec 144) : Command := ⟨b.extractLsb' 128 16, b.extractLsb' 0 128⟩

/-- The command whose bits, numbered as spec/opcode_table.json numbers them, are w: the table numbers the 16 header bits
15..0; the data operand, to which the table gives no bits, counts on from bit 16 (log 8). Bits at nbits and above are 0. -/
def tableCommand (nbits w : Nat) : Command :=
  ⟨BitVec.ofNat 16 (w % 2 ^ nbits), BitVec.ofNat 128 (w % 2 ^ nbits / 2 ^ 16)⟩

/-- What the decoder reads from the command whose table bits are w. -/
def decodeTableWord (nbits w : Nat) : Option Instr :=
  match decode (tableCommand nbits w) with
  | .ok i    => some i
  | .error _ => none

end Sys2Proof
end

