-- ==== Sys2Proof/Machine/State.lean ====
section
/-! DEFINITION. The state of one engine instance: the registers of 10_state.md R20 "and nothing else", with three fields of
the model's own (the host's events to come, the responses given, the count of free values drawn; logs 1, 2, 4). The state
after reset (10_state.md R31). The reasons a step could stop: none exists in the spec. -/

namespace Sys2Proof.Machine

/-- The phase register PH (10_state.md R24). The value 3 is "never held" (93_implementation_defined.md S5; log 6). -/
inductive Phase where
  /-- 0: no hash computation in progress. -/
  | idle
  /-- 1: INIT done, full words are being compressed. -/
  | absorb
  /-- 2: the final padded word has been compressed, finalization has not been done. -/
  | padded
  deriving DecidableEq, Repr

/-- The three exceptions (60_exceptions.md R170). -/
inductive Exception where
  /-- Code 1: KEYB with n not 16 (60_exceptions.md R171). -/
  | invalidKeyLength
  /-- Code 2: the command's phase or key precondition does not hold (60_exceptions.md R172). -/
  | sequenceError
  /-- Code 3: the header matches no command (60_exceptions.md R173). -/
  | illegalCommand
  deriving DecidableEq, Repr

/-- A response code (30_encoding.md R80). Codes 4 .. 15 are never produced (93_implementation_defined.md S5; log 6). -/
inductive RespCode where
  /-- Code 0, OK: the command was executed. -/
  | ok
  /-- The code of the exception that refused the command. -/
  | exception (e : Exception)
  deriving DecidableEq, Repr

/-- A response (30_encoding.md R79): a code and 64 bits of data. -/
structure Response where
  code  : RespCode
  rdata : Word
  deriving DecidableEq, Repr

/-- What the host can do to an instance (70_reset_and_hazards.md R209): present a command, or apply reset. -/
inductive HostEvent where
  /-- A command is presented (30_encoding.md R70). -/
  | command (c : Command)
  /-- Reset is applied (70_reset_and_hazards.md R200): not a command, no encoding, no response. -/
  | reset
  deriving DecidableEq, Repr

/-- The state of one engine instance. -/
structure State where
  /-- V0, V1, V2, V3 (10_state.md R21). -/
  v : Arx
  /-- K0 (10_state.md R22). -/
  k0 : Word
  /-- K1 (10_state.md R22). -/
  k1 : Word
  /-- KV, key valid (10_state.md R23). -/
  kv : Bool
  /-- PH (10_state.md R24). -/
  ph : Phase
  /-- LEN8 (10_state.md R25). -/
  len8 : Byte
  /-- ERR: bit 0 KL, bit 1 SEQ, bit 2 ILL (10_state.md R26). -/
  err : BitVec 3
  /-- The model's own: how many times the free values of Config have been drawn (log 4). -/
  draws : Nat
  /-- The model's own: what the host will do next, first first (log 1). -/
  pending : List HostEvent
  /-- The model's own: the responses given so far, oldest first (log 2). No rule reads it. -/
  responses : List Response
  deriving DecidableEq, Repr

/-- Reasons a step stops with a fault: NONE. The spec's three exceptions are taken as next states (60_exceptions.md R175),
and "the engine never stops by itself" (70_reset_and_hazards.md R208; log 21). Safe: no behaviour is cut off. -/
inductive Fault where
  deriving DecidableEq, Repr

/-- Reasons a step has no meaning. -/
inductive Refusal where
  /-- Raised by an arm of exec whose instruction has no meaning yet. No arm raises it now. Safe: the model would stop
  where the hardware goes on. -/
  | notModelled (mnemonic : String)
  deriving DecidableEq, Repr

/-- The machine right after reset (10_state.md R31): PH = IDLE, KV = 0, ERR = 000. The registers that R31 leaves
unspecified hold the free values of draw 0 (DESIGN CHOICE, log 3). Nothing is presented yet and nothing answered yet
(DESIGN CHOICE, logs 1, 2); one draw has been made (DESIGN CHOICE, log 4). -/
def State.reset : State where
  v := ⟨Config.freeV0 0 0, Config.freeV1 0 0, Config.freeV2 0 0, Config.freeV3 0 0⟩
  k0 := Config.freeK0 0 0
  k1 := Config.freeK1 0 0
  kv := false
  ph := .idle
  len8 := Config.freeLen8 0 0
  err := 0
  draws := 1
  pending := []
  responses := []

end Sys2Proof.Machine
end

