-- ==== Sys2Proof/Machine/Flags.lean ====
section
/-! DEFINITION. The codes and flags of the engine: the phase code (10_state.md R24), the response codes
(30_encoding.md R80), the ERR bits (10_state.md R26) and the STATUS view (R27). No operation makes a carry, zero, overflow
or sign flag (R27). -/

namespace Sys2Proof.Machine

/-- The 2-bit value of PH (10_state.md R24). -/
def Phase.code : Phase → BitVec 2
  | .idle   => 0
  | .absorb => 1
  | .padded => 2

/-- The 4-bit response code (30_encoding.md R80). -/
def RespCode.code : RespCode → BitVec 4
  | .ok                          => 0
  | .exception .invalidKeyLength => 1
  | .exception .sequenceError    => 2
  | .exception .illegalCommand   => 3

/-- The ERR bit an exception sets: KL is bit 0, SEQ bit 1, ILL bit 2 (10_state.md R26, 60_exceptions.md R170). -/
def Exception.errBit : Exception → BitVec 3
  | .invalidKeyLength => 0b001
  | .sequenceError    => 0b010
  | .illegalCommand   => 0b100

/-- KV as one bit. -/
def kvBit (kv : Bool) : BitVec 1 := BitVec.ofBool kv

/-- 0 ‖ ERR[2:0] ‖ 0 ‖ KV ‖ PH[1:0] (10_state.md R27). -/
def statusBits (err : BitVec 3) (kv : Bool) (ph : Phase) : BitVec 8 :=
  (0#1 ++ err ++ 0#1 ++ kvBit kv ++ ph.code : BitVec (1 + 3 + 1 + 1 + 2))

/-- STATUS, a read-only view assembled from PH, KV and ERR, not a register (10_state.md R20, R27). -/
def statusView (s : State) : BitVec 8 := statusBits s.err s.kv s.ph

end Sys2Proof.Machine
end

