-- ==== Sys2Proof/Machine/Ops.lean ====
section
/-! DEFINITION. The named operations over the state, used by every meaning: fetching the next host event, responding,
taking an exception, loading the key, moving the ARX state and LEN8, the phase, and the two places where registers become
unspecified (FIN and reset). The engine has no memory (20_memory.md R50), hence no operation over one. -/

namespace Sys2Proof.Machine

/-- The next thing the host does, with the state from which it is done (20_memory.md R59: one at a time, in the order
presented). None when the host presents nothing. -/
def fetch (s : State) : Option (HostEvent × State) :=
  match s.pending with
  | []        => none
  | e :: rest => some (e, { s with pending := rest })

/-- s with the command placed where `fetch` takes its next event. -/
def present (c : Command) (s : State) : State := { s with pending := .command c :: s.pending }

/-- respond(code, data): the command ends with that response (00_scope.md R8, 30_encoding.md R79). -/
def respond (code : RespCode) (rdata : Word) (s : State) : State :=
  { s with responses := s.responses ++ [⟨code, rdata⟩] }

/-- ERR[j] <- 1 for the bit of the exception (10_state.md R26: sticky, no command clears a bit). -/
def setErr (e : Exception) (s : State) : State := { s with err := s.err ||| e.errBit }

/-- Taking an exception (60_exceptions.md R175): the ERR bit of e is set, no other state changes, the response is
(code of e, zext_64(hdr)). Nothing is saved and control goes nowhere; there is no return (R177), the engine is ready for
the next command at once. -/
def takeException (e : Exception) (hdr : Hdr) (s : State) : State :=
  respond (.exception e) (hdr.setWidth 64) (setErr e s)

/-- K0 <- k0, K1 <- k1, KV <- 1 (40_key.md R100, R101). -/
def loadKey (k0 k1 : Word) (s : State) : State := { s with k0 := k0, k1 := k1, kv := true }

/-- V[0..3] <- v and LEN8 <- len8. -/
def writeArx (v : Arx) (len8 : Byte) (s : State) : State := { s with v := v, len8 := len8 }

/-- PH <- ph (10_state.md R24). -/
def setPhase (ph : Phase) (s : State) : State := { s with ph := ph }

/-- V0..V3 and LEN8 become unspecified, `last` being what the command computed last in V0..V3 (43_pad_final.md R144: an
implementation may leave it, clear it or overwrite it): free values of a fresh draw (log 4). -/
def dropComputation (last : Arx) (s : State) : State :=
  { s with
    v := ⟨Config.freeV0 s.draws last.v0, Config.freeV1 s.draws last.v1,
          Config.freeV2 s.draws last.v2, Config.freeV3 s.draws last.v3⟩
    len8 := Config.freeLen8 s.draws s.len8
    draws := s.draws + 1 }

/-- The reset event (70_reset_and_hazards.md R200): PH = IDLE, KV = 0, ERR = 000; K0, K1, V0..V3 and LEN8 unspecified
(free values of a fresh draw, log 4). It gives no response. What the host will do next and the responses already given are
the host's and stay. -/
def takeReset (s : State) : State :=
  { s with
    v := ⟨Config.freeV0 s.draws s.v.v0, Config.freeV1 s.draws s.v.v1,
          Config.freeV2 s.draws s.v.v2, Config.freeV3 s.draws s.v.v3⟩
    k0 := Config.freeK0 s.draws s.k0
    k1 := Config.freeK1 s.draws s.k1
    kv := false
    ph := .idle
    len8 := Config.freeLen8 s.draws s.len8
    err := 0
    draws := s.draws + 1 }

end Sys2Proof.Machine
end

