-- ==== Sys2Proof/Machine/Operands.lean ====
section
/-! DEFINITION. How bytes become words: little-endian, unsigned (20_memory.md R52, R53), the final padded word
(43_pad_final.md R140), and the bytes on the lanes of an operand (30_encoding.md R72). -/

namespace Sys2Proof.Machine

/-- le64 of a byte sequence, first byte least significant; every byte enters by zero extension only (20_memory.md R52,
R53). The spec defines it on 8 bytes; a shorter sequence counts as padded with zero bytes (log 18). -/
def le64 : List Byte → Word
  | []      => 0
  | b :: bs => b.setWidth 64 ||| (le64 bs <<< 8)

/-- PadWord(T, r, L) with r = length of T: the tail bytes low, the length byte in bits 63:56 (43_pad_final.md R140). -/
def padWord (T : List Byte) (L : Byte) : Word := (L.setWidth 64 <<< 56) ||| le64 T

/-- The final word as CMPL builds it: (zext_64(LEN8) << 56) | t (43_pad_final.md R141). -/
def finalWord (len8 : Byte) (t : Word) : Word := (len8.setWidth 64 <<< 56) ||| t

/-- The bytes on lanes 0 .. n-1 of a data operand, in lane order (30_encoding.md R72). -/
def laneBytes (n : Nat) (d : Data) : List Byte := (List.range n).map (lane d)

/-- The bytes of lanes 0 .. n-1 of a 64-bit word (lane i is bits 8i+7:8i, 30_encoding.md R72): the eight message bytes of
a full word (n = 8), the r bytes of a tail word (n = r). -/
def wordBytes (n : Nat) (w : Word) : List Byte := (List.range n).map fun i => w.extractLsb' (8 * i) 8

end Sys2Proof.Machine
end

