-- ==== Sys2Proof/Machine/Arx.lean ====
section
/-! DEFINITION. The ARX datapath: addition, rotation, SipRound, Compress (41_arx_round.md), the initialization
(42_init_compress.md R130, R131) and the finalization (43_pad_final.md R143) of the four words. Pure functions: no flag,
no exception, no other state. -/

namespace Sys2Proof.Machine

/-- a +64 b: addition modulo 2^64, the carry discarded (41_arx_round.md R110). -/
def add64 (a b : Word) : Word := a + b

/-- rotl64(x, n), 0 < n < 64: ((x << n) mod 2^64) | (x >> (64 - n)) (41_arx_round.md R111). -/
def rotl64 (x : Word) (n : Nat) : Word := (x <<< n) ||| (x >>> (64 - n))

/-- One SipRound: the fourteen assignments s1 to s14 in this order, each using the values left by those before it
(41_arx_round.md R113; the rotation amounts are R116's). -/
def sipRound (v : Arx) : Arx :=
  let v0 := add64 v.v0 v.v1      -- s1
  let v1 := rotl64 v.v1 13       -- s2
  let v1 := v1 ^^^ v0            -- s3
  let v0 := rotl64 v0 32         -- s4
  let v2 := add64 v.v2 v.v3      -- s5
  let v3 := rotl64 v.v3 16       -- s6
  let v3 := v3 ^^^ v2            -- s7
  let v0 := add64 v0 v3          -- s8
  let v3 := rotl64 v3 21         -- s9
  let v3 := v3 ^^^ v0            -- s10
  let v2 := add64 v2 v1          -- s11
  let v1 := rotl64 v1 17         -- s12
  let v1 := v1 ^^^ v2            -- s13
  let v2 := rotl64 v2 32         -- s14
  ⟨v0, v1, v2, v3⟩

/-- Compress(v, w): w into v3, two SipRounds, w into v0 (41_arx_round.md R115). -/
def compress (v : Arx) (w : Word) : Arx :=
  let u := sipRound (sipRound { v with v3 := v.v3 ^^^ w })
  { u with v0 := u.v0 ^^^ w }

/-- C0 (42_init_compress.md R130; the literal is normative, 90_conflicts.md C1). -/
def initC0 : Word := 0x736f6d6570736575
/-- C1 (42_init_compress.md R130). -/
def initC1 : Word := 0x646f72616e646f6d
/-- C2 (42_init_compress.md R130). -/
def initC2 : Word := 0x6c7967656e657261
/-- C3 (42_init_compress.md R130). -/
def initC3 : Word := 0x7465646279746573

/-- The ARX state INIT makes from the key: k0 enters v0 and v2, k1 enters v1 and v3 (42_init_compress.md R131). -/
def initArx (k0 k1 : Word) : Arx := ⟨k0 ^^^ initC0, k1 ^^^ initC1, k0 ^^^ initC2, k1 ^^^ initC3⟩

/-- The words after finalization: 0xff into v2, then four SipRounds (43_pad_final.md R143). -/
def finalArx (v : Arx) : Arx :=
  sipRound (sipRound (sipRound (sipRound { v with v2 := v.v2 ^^^ 0x00000000000000ff })))

/-- v0 ^ v1 ^ v2 ^ v3 (43_pad_final.md R143). -/
def foldArx (v : Arx) : Word := v.v0 ^^^ v.v1 ^^^ v.v2 ^^^ v.v3

/-- The digest of a state whose final word has been compressed (43_pad_final.md R143). -/
def digestOf (v : Arx) : Word := foldArx (finalArx v)

end Sys2Proof.Machine
end

