-- ==== Sys2Proof/Machine/Compression.lean ====
section
/-! DEFINITION. State initialization and full-word compression: INIT and CMPW (42_init_compress.md). Their check for a
non-zero argument is the decoder's (log 16). -/

namespace Sys2Proof.Machine

/-- INIT (42_init_compress.md R131): accepted in IDLE with a key; it does not restart or cancel a computation. -/
def execInit (s : State) : Host.Outcome State Fault Refusal :=
  if s.ph = .idle ∧ s.kv = true then
    .next (respond .ok 0 (setPhase .absorb (writeArx (initArx s.k0 s.k1) 0 s)))
  else .next (takeException .sequenceError Instr.init.hdr s)

/-- CMPW (42_init_compress.md R132). -/
def execCmpw (m : Word) (s : State) : Host.Outcome State Fault Refusal :=
  if s.ph = .absorb then .next (respond .ok 0 (writeArx (compress s.v m) (s.len8 + 8) s))
  else .next (takeException .sequenceError (Instr.cmpw m).hdr s)

end Sys2Proof.Machine
end

