-- ==== Sys2Proof/Machine/Finalization.lean ====
section
/-! DEFINITION. Padding, length encoding and finalization: CMPL and FIN (43_pad_final.md). Their check for reserved
argument bits is the decoder's (log 16). -/

namespace Sys2Proof.Machine

/-- CMPL (43_pad_final.md R141): the unit masks lanes r..7, adds r to LEN8, and compresses the final word. -/
def execCmpl (r : BitVec 3) (t : Word) (s : State) : Host.Outcome State Fault Refusal :=
  if s.ph = .absorb then
    let len8 := s.len8 + r.setWidth 8
    let b := finalWord len8 (tailWord r t)
    .next (respond .ok 0 (setPhase .padded (writeArx (compress s.v b) len8 s)))
  else .next (takeException .sequenceError (Instr.cmpl r t).hdr s)

/-- FIN (43_pad_final.md R143): the digest is answered and kept nowhere; V0..V3 and LEN8 become unspecified (R144). -/
def execFin (s : State) : Host.Outcome State Fault Refusal :=
  if s.ph = .padded then
    .next (respond .ok (digestOf s.v) (setPhase .idle (dropComputation (finalArx s.v) s)))
  else .next (takeException .sequenceError Instr.fin.hdr s)

end Sys2Proof.Machine
end

