-- ==== Sys2Proof/Machine/Key.lean ====
section
/-! DEFINITION. The key load commands KEYW and KEYB (40_key.md). Their first check, IllegalCommand on a non-zero argument
of KEYW, is the decoder's (log 16): KEYB has no illegal header. -/

namespace Sys2Proof.Machine

/-- KEYW (40_key.md R100). -/
def execKeyw (k0 k1 : Word) (s : State) : Host.Outcome State Fault Refusal :=
  if s.ph = .idle then .next (respond .ok 0 (loadKey k0 k1 s))
  else .next (takeException .sequenceError (Instr.keyw k0 k1).hdr s)

/-- KEYB (40_key.md R101): SequenceError is looked at before InvalidKeyLength (60_exceptions.md R174). A refused load
leaves the key that was there. -/
def execKeyb (n : Byte) (kb : Data) (s : State) : Host.Outcome State Fault Refusal :=
  if s.ph = .idle then
    if n = 16 then .next (respond .ok 0 (loadKey (lowWord kb) (highWord kb) s))
    else .next (takeException .invalidKeyLength (Instr.keyb n kb).hdr s)
  else .next (takeException .sequenceError (Instr.keyb n kb).hdr s)

end Sys2Proof.Machine
end

