-- ==== Sys2Proof/Machine/Status.lean ====
section
/-! DEFINITION. The status read STAT (44_system_and_composite.md R150). Its check for a non-zero argument is the decoder's
(log 16). -/

namespace Sys2Proof.Machine

/-- STAT (44_system_and_composite.md R150): accepted in every phase, with or without a key; writes no state. -/
def execStat (s : State) : Host.Outcome State Fault Refusal :=
  .next (respond .ok ((statusView s).setWidth 64) s)

end Sys2Proof.Machine
end

