-- ==== Sys2Proof/Machine/Dispatch.lean ====
section
/-! DEFINITION. One arm per command (30_encoding.md R74), each a direct call of its meaning. -/

namespace Sys2Proof.Machine

def exec (i : Instr) (s : State) : Host.Outcome State Fault Refusal :=
  match i with
  | .keyw k0 k1 => Sys2Proof.Machine.execKeyw k0 k1 s
  | .keyb n kb => Sys2Proof.Machine.execKeyb n kb s
  | .init => Sys2Proof.Machine.execInit s
  | .cmpw m => Sys2Proof.Machine.execCmpw m s
  | .cmpl r t => Sys2Proof.Machine.execCmpl r t s
  | .fin => Sys2Proof.Machine.execFin s
  | .stat => Sys2Proof.Machine.execStat s

end Sys2Proof.Machine
end

