-- ==== Sys2Proof/Machine/Command.lean ====
section
/-! DEFINITION. What a presented command does, legal or not, what a host event does, and a sequence of commands presented
one after another (20_memory.md R59). -/

namespace Sys2Proof.Machine

/-- A presented command: decoded and executed, or refused with IllegalCommand "whatever the phase and whatever the data"
(30_encoding.md R76, 60_exceptions.md R173). Legality is decided first (R174). -/
def execCommand (c : Command) (s : State) : Host.Outcome State Fault Refusal :=
  match decode c with
  | .ok i    => exec i s
  | .error _ => .next (takeException .illegalCommand c.hdr s)

/-- One host event (00_scope.md R9): a command is executed, or the engine is reset. -/
def runEvent (e : HostEvent) (s : State) : Host.Outcome State Fault Refusal :=
  match e with
  | .command c => execCommand c s
  | .reset     => .next (takeReset s)

/-- Commands presented one after another, each complete before the next (20_memory.md R59). -/
def runCommands : List Command → State → Host.Outcome State Fault Refusal
  | [], s      => .next s
  | c :: cs, s =>
    match execCommand c s with
    | .next t    => runCommands cs t
    | .fault f   => .fault f
    | .refused q => .refused q

end Sys2Proof.Machine
end

