-- ==== Sys2Proof/Machine/Step.lean ====
section
/-! DEFINITION. One step of the engine, and placing an instruction where the step takes it from. -/

namespace Sys2Proof.Machine

/-- One step: the next host event is taken and done. With nothing presented the engine "does nothing and keeps its state
indefinitely" (60_exceptions.md R184; log 9). -/
def step (s : State) : Host.Outcome State Fault Refusal :=
  match fetch s with
  | none        => .next s
  | some (e, t) => runEvent e t

/-- s with the command of these table bits presented next (log 8). -/
def State.withFetchWord (s : State) (nbits w : Nat) : State := present (tableCommand nbits w) s

end Sys2Proof.Machine
end

