-- ==== Sys2Proof/Machine/Composite.lean ====
section
/-! DEFINITION. The reference function SipHash24 and the host's pseudo-operations HASHW and HASHB
(44_system_and_composite.md R151 to R153). They are no commands (30_encoding.md R82): the host issues the commands. -/

namespace Sys2Proof.Machine

/-- MemRead(addr, n): the bytes M[addr .. addr+n) of the host's message. The spec defines it only in range
(20_memory.md R51; log 18). -/
def memRead (M : List Byte) (addr n : Nat) : List Byte := (M.drop addr).take n

/-- q, the number of full 8-byte words (44_system_and_composite.md R151). -/
def fullWords (M : List Byte) : Nat := M.length / 8

/-- Full block i of the message: M[8i .. 8i+8) (20_memory.md R54). -/
def blockBytes (M : List Byte) (i : Nat) : List Byte := memRead M (8 * i) 8

/-- The tail of the message: M[8q .. len(M)), r = len(M) mod 8 bytes (20_memory.md R54). -/
def tailOf (M : List Byte) : List Byte := memRead M (8 * fullWords M) (M.length % 8)

/-- The ARX state before finalization: steps 1 to 3 of the reference function (44_system_and_composite.md R151). -/
def absorbMessage (k0 k1 : Word) (M : List Byte) : Arx :=
  let v := (List.range (fullWords M)).foldl (fun v i => compress v (le64 (blockBytes M i))) (initArx k0 k1)
  compress v (padWord (tailOf M) (BitVec.ofNat 8 M.length))

/-- The reference function SipHash24(k0, k1, M) (44_system_and_composite.md R151). -/
def sipHash24 (k0 k1 : Word) (M : List Byte) : Word := digestOf (absorbMessage k0 k1 M)

/-- The line `KEYB n, b0 b1 …`: byte i on lane i, the lanes not listed written as 00 (30_encoding.md R81). -/
def asmKeyb (n : Nat) (bytes : List Byte) : Command := ⟨0x0200 + BitVec.ofNat 16 n, dataOfBytes bytes⟩

/-- The line `CMPW b0 … b7` (30_encoding.md R81). -/
def asmCmpw (bytes : List Byte) : Command := ⟨0x0400, dataOfBytes bytes⟩

/-- The line `CMPL r, b0 … b(r-1)` (30_encoding.md R81). -/
def asmCmpl (r : Nat) (bytes : List Byte) : Command := ⟨0x0500 + BitVec.ofNat 16 r, dataOfBytes bytes⟩

/-- The commands of HASHW from INIT on: INIT, q CMPW in message order, one CMPL with the tail, FIN
(44_system_and_composite.md R152). -/
def hashCommands (M : List Byte) : List Command :=
  encode .init ::
    ((List.range (fullWords M)).map fun i => asmCmpw (blockBytes M i)) ++
    [asmCmpl (M.length % 8) (tailOf M), encode .fin]

/-- HASHW k0, k1, M (44_system_and_composite.md R152): q + 4 commands. -/
def hashw (k0 k1 : Word) (M : List Byte) : List Command := encode (.keyw k0 k1) :: hashCommands M

/-- The first command of HASHB: KEYB min(len(KB), 255), KB[0 .. min(len(KB), 16)) (44_system_and_composite.md R153). -/
def hashbKey (KB : List Byte) : Command := asmKeyb (min KB.length 255) (KB.take 16)

/-- The response to the latest command answered. -/
def lastResponse (s : State) : Option Response := s.responses.getLast?

/-- HASHB KB, M as the host runs it: after a KEYB that is not answered OK it stops, and no further command is issued
(44_system_and_composite.md R153; log 19). -/
def hashb (KB M : List Byte) (s : State) : Host.Outcome State Fault Refusal :=
  match execCommand (hashbKey KB) s with
  | .next t    => if (lastResponse t).map Response.code = some .ok then runCommands (hashCommands M) t else .next t
  | .fault f   => .fault f
  | .refused q => .refused q

end Sys2Proof.Machine
end

