-- ==== Sys2Proof/Machine/System.lean ====
section
/-! DEFINITION. N_INST engine instances side by side (00_scope.md R5, 10_state.md R33, 60_exceptions.md R182): each has its
own state, none sees another. N_INST is open; a system here is any non-empty list of instances. -/

namespace Sys2Proof.Machine

/-- A system of engine instances. -/
structure System where
  instances : List State
  deriving DecidableEq, Repr

/-- N_INST is a natural number >= 1 (00_scope.md R5). -/
def System.wf (S : System) : Bool := decide (1 ≤ S.instances.length)

/-- All instances "come out of reset in the state of 10_state.md rule R31" (60_exceptions.md R182): of each what R31 states.
What R31 leaves unspecified may differ from instance to instance (log 12). -/
def System.afterReset (S : System) : Prop := ∀ s ∈ S.instances, s.ph = .idle ∧ s.kv = false ∧ s.err = 0

/-- Instance k takes one step; the others are not touched. None when there is no instance k. -/
def System.stepAt (k : Nat) (S : System) : Option System :=
  match S.instances[k]? with
  | none   => none
  | some s =>
    match step s with
    | .next t    => some ⟨S.instances.set k t⟩
    | .fault _   => none
    | .refused _ => none

end Sys2Proof.Machine
end

