-- ==== Sys2Proof/Safety.lean ====
section
/-! DEFINITION. The vocabulary of the claims: the invariants of the engine, the table of preconditions
(60_exceptions.md R172), which states a host cannot tell apart (10_state.md R30), the fourteen steps of a SipRound one by one
(41_arx_round.md R113), and what a sequence of commands presents of a message. -/

namespace Sys2Proof.Machine

/-! ### Invariants -/

/-- The control invariant: outside IDLE a key is loaded ("KV = 0 cannot occur together with PH = ABSORB or PADDED",
60_exceptions.md R172), and in ABSORB LEN8 is a multiple of 8 (43_pad_final.md R142). -/
def ControlInv (s : State) : Prop :=
  (s.ph ≠ .idle → s.kv = true) ∧ (s.ph = .absorb → s.len8.toNat % 8 = 0)

/-- The ARX state after INIT and the full words W (42_init_compress.md R131, R132). -/
def absorbWords (k0 k1 : Word) (W : List Word) : Arx := W.foldl compress (initArx k0 k1)

/-- The hash invariant: in ABSORB the ARX words and LEN8 are those of some full words absorbed under the loaded key; in
PADDED they are those of some message whose final word has been compressed (10_state.md R25,
44_system_and_composite.md R151). -/
def HashInv (s : State) : Prop :=
  match s.ph with
  | .idle   => True
  | .absorb => s.kv = true ∧ ∃ W : List Word,
      s.v = absorbWords s.k0 s.k1 W ∧ s.len8 = BitVec.ofNat 8 (8 * W.length)
  | .padded => s.kv = true ∧ ∃ M : List Byte,
      s.v = absorbMessage s.k0 s.k1 M ∧ s.len8 = BitVec.ofNat 8 M.length

/-! ### Preconditions and outcomes -/

/-- The phase and key precondition of a command (60_exceptions.md R172, the OK columns). -/
def precondition : Instr → Phase → Bool → Bool
  | .keyw _ _, ph, _ => ph == .idle
  | .keyb _ _, ph, _ => ph == .idle
  | .init, ph, kv    => ph == .idle && kv
  | .cmpw _, ph, _   => ph == .absorb
  | .cmpl _ _, ph, _ => ph == .absorb
  | .fin, ph, _      => ph == .padded
  | .stat, _, _      => true

/-- One cell of the table of 60_exceptions.md R172: the exception that refuses the command, or the phase it leads to. -/
def tableEntry : Instr → Phase → Bool → Except Exception Phase
  | .keyw _ _, .idle, _    => .ok .idle
  | .keyw _ _, .absorb, _  => .error .sequenceError
  | .keyw _ _, .padded, _  => .error .sequenceError
  | .keyb n _, .idle, _    => if n = 16 then .ok .idle else .error .invalidKeyLength
  | .keyb _ _, .absorb, _  => .error .sequenceError
  | .keyb _ _, .padded, _  => .error .sequenceError
  | .init, .idle, false    => .error .sequenceError
  | .init, .idle, true     => .ok .absorb
  | .init, .absorb, _      => .error .sequenceError
  | .init, .padded, _      => .error .sequenceError
  | .cmpw _, .idle, _      => .error .sequenceError
  | .cmpw _, .absorb, _    => .ok .absorb
  | .cmpw _, .padded, _    => .error .sequenceError
  | .cmpl _ _, .idle, _    => .error .sequenceError
  | .cmpl _ _, .absorb, _  => .ok .padded
  | .cmpl _ _, .padded, _  => .error .sequenceError
  | .fin, .idle, _         => .error .sequenceError
  | .fin, .absorb, _       => .error .sequenceError
  | .fin, .padded, _       => .ok .idle
  | .stat, ph, _           => .ok ph

/-- The first exception that applies to a command, in the order of 60_exceptions.md R174. -/
def firstException (c : Command) (ph : Phase) (kv : Bool) : Option Exception :=
  match decode c with
  | .error _ => some .illegalCommand
  | .ok i    =>
    if precondition i ph kv = false then some .sequenceError
    else match i with
      | .keyb n _ => if n = 16 then none else some .invalidKeyLength
      | _         => none

/-- A key load that is accepted: KEYW or KEYB with n = 16, in IDLE (40_key.md R100, R101). It gives the two words. -/
def acceptedKey (c : Command) (s : State) : Option (Word × Word) :=
  match decode c with
  | .ok (.keyw k0 k1) => if s.ph = .idle then some (k0, k1) else none
  | .ok (.keyb n kb)  => if s.ph = .idle ∧ n = 16 then some (lowWord kb, highWord kb) else none
  | _                 => none

/-! ### What a host can tell apart -/

/-- Two states that differ only in what is unspecified: V0..V3 and LEN8 in IDLE, K0 and K1 while KV = 0 (10_state.md R30),
and the count of draws. -/
def Alike (s t : State) : Prop :=
  s.ph = t.ph ∧ s.kv = t.kv ∧ s.err = t.err ∧ s.pending = t.pending ∧ s.responses = t.responses ∧
  (s.kv = true → s.k0 = t.k0 ∧ s.k1 = t.k1) ∧ (s.ph ≠ .idle → s.v = t.v ∧ s.len8 = t.len8)

/-- The response a command gives in a state: the one by which the responses grow. -/
def Answers (c : Command) (s : State) (r : Response) : Prop :=
  ∃ t, execCommand c s = .next t ∧ t.responses = s.responses ++ [r]

/-! ### SipRound step by step -/

/-- The steps s1 to s4, which touch only v0 and v1 (41_arx_round.md R113, R114). -/
def sipS1to4 : List (Arx → Arx) :=
  [fun v => { v with v0 := add64 v.v0 v.v1 }, fun v => { v with v1 := rotl64 v.v1 13 },
   fun v => { v with v1 := v.v1 ^^^ v.v0 }, fun v => { v with v0 := rotl64 v.v0 32 }]

/-- The steps s5 to s7, which touch only v2 and v3. -/
def sipS5to7 : List (Arx → Arx) :=
  [fun v => { v with v2 := add64 v.v2 v.v3 }, fun v => { v with v3 := rotl64 v.v3 16 },
   fun v => { v with v3 := v.v3 ^^^ v.v2 }]

/-- The steps s8 to s10, which touch only v0 and v3. -/
def sipS8to10 : List (Arx → Arx) :=
  [fun v => { v with v0 := add64 v.v0 v.v3 }, fun v => { v with v3 := rotl64 v.v3 21 },
   fun v => { v with v3 := v.v3 ^^^ v.v0 }]

/-- The steps s11 to s14, which touch only v1 and v2. -/
def sipS11to14 : List (Arx → Arx) :=
  [fun v => { v with v2 := add64 v.v2 v.v1 }, fun v => { v with v1 := rotl64 v.v1 17 },
   fun v => { v with v1 := v.v1 ^^^ v.v2 }, fun v => { v with v2 := rotl64 v.v2 32 }]

/-- Assignments executed in the order written, each seeing the results of those before it (00_scope.md R8). -/
def runSteps (steps : List (Arx → Arx)) (v : Arx) : Arx := steps.foldl (fun u f => f u) v

/-! ### What a sequence of commands presents -/

/-- The full word a command presents, if it is a CMPW. -/
def presentedWord (c : Command) : Option Word :=
  match decode c with
  | .ok (.cmpw m) => some m
  | _             => none

/-- The full words presented by a sequence of commands, in order. -/
def presentedWords (cs : List Command) : List Word := cs.filterMap presentedWord

/-- The command is a CMPL. -/
def isCmpl (c : Command) : Bool :=
  match decode c with
  | .ok (.cmpl _ _) => true
  | _               => false

/-- The command is a FIN. -/
def isFin (c : Command) : Bool :=
  match decode c with
  | .ok .fin => true
  | _        => false

/-- The message bytes of full words followed by a tail of r bytes (44_system_and_composite.md R154). -/
def messageOf (W : List Word) (r : BitVec 3) (t : Word) : List Byte :=
  W.flatMap (wordBytes 8) ++ wordBytes r.toNat t

end Sys2Proof.Machine
end

