-- ==== Sys2Proof/Certificates/Slice0/Obligations.lean ====
section
/-! DEFINITION. The statements for the provers. Each formalises rules of the spec named in its docstring. A next state is
written out field by field as the rule gives it, so that each equation is also the command's frame: what it does not name is
unchanged. The engine has no memory (20_memory.md R50), so no frame speaks of one. -/

open Sys2Proof Sys2Proof.Machine

/-! ### Encoding -/

/-- Headers and data written out from the opcode map and the formats (30_encoding.md R73, R74) decode to the command they
stand for, and headers of R76 are illegal (95_test_vectors.md 2.9). -/
def Obligations.SpecWordsDecode : Prop :=
  decode ⟨0b0000000100000000, 0x0f0e0d0c0b0a09080706050403020100⟩ =
    .ok (.keyw 0x0706050403020100 0x0f0e0d0c0b0a0908) ∧
  decode ⟨0b0000001000010000, 0xff000000000000000000000000000080⟩ = .ok (.keyb 16 0xff000000000000000000000000000080) ∧
  decode ⟨0b0000001011111111, 0x0f0e0d0c0b0a09080706050403020100⟩ = .ok (.keyb 255 0) ∧
  decode ⟨0b0000001100000000, 0xffffffffffffffffffffffffffffffff⟩ = .ok .init ∧
  decode ⟨0b0000010000000000, 0xdeadbeefdeadbeef0706050403020100⟩ = .ok (.cmpw 0x0706050403020100) ∧
  decode ⟨0b0000010100000001, 0xffffffffffffffffffffffffffffff61⟩ = .ok (.cmpl 1 0x61) ∧
  decode ⟨0b0000010100000111, 0x0f0e0d0c0b0a09080706050403020100⟩ = .ok (.cmpl 7 0x0006050403020100) ∧
  decode ⟨0b0000011000000000, 0⟩ = .ok .fin ∧
  decode ⟨0b0000011100000000, 0⟩ = .ok .stat ∧
  decode ⟨0b0000000000000000, 0⟩ = .error .reservedOpcode ∧
  decode ⟨0b0000001100000001, 0⟩ = .error .nonzeroArgument ∧
  decode ⟨0b0000010100001000, 0⟩ = .error .nonzeroTailBits

/-- Decoding what the encoder writes gives the instruction back, for every well-formed instruction: no operand bit is
dropped (30_encoding.md R73, R75, R81). -/
def Obligations.DecodeOfEncodeIsTheInstruction : Prop :=
  ∀ i : Instr, i.wellFormed = true → decode (encode i) = .ok i

/-- What the decoder gives is well formed, and encoding it gives the command back, header whole and data on the bits the
command uses (30_encoding.md R75, R78). -/
def Obligations.EncodeOfDecodeKeepsUsedBits : Prop :=
  ∀ (c : Command) (i : Instr), decode c = .ok i →
    i.wellFormed = true ∧ encode i = ⟨c.hdr, c.data &&& usedDataMask c.hdr⟩

/-- The illegal headers are exactly the cases (a), (b), (c) of R76; each is refused with IllegalCommand whatever the phase,
the state and the data; 269 of the 65536 headers are legal (30_encoding.md R76). -/
def Obligations.IllegalHeadersAreRefused : Prop :=
  (∀ (h : Hdr) (d : Data), (∃ x, decode ⟨h, d⟩ = .error x) ↔
    (opField h = 0 ∨ 8 ≤ (opField h).toNat) ∨
    ((opField h = 1 ∨ opField h = 3 ∨ opField h = 4 ∨ opField h = 6 ∨ opField h = 7) ∧ argField h ≠ 0) ∨
    (opField h = 5 ∧ h.extractLsb' 3 5 ≠ (0 : BitVec 5))) ∧
  (∀ (h : Hdr) (d : Data) (s : State), (∃ x, decode ⟨h, d⟩ = .error x) →
    execCommand ⟨h, d⟩ s = .next { s with
      err := s.err ||| 0b100, responses := s.responses ++ [⟨.exception .illegalCommand, h.setWidth 64⟩] }) ∧
  ((List.range 65536).filter fun n => opcodeMap.any fun row => row.selects (BitVec.ofNat 16 n)).length = 269 ∧
  (∀ (h : Hdr) (d : Data), (∃ i, decode ⟨h, d⟩ = .ok i) ↔ (opcodeMap.any fun row => row.selects h) = true)

/-- The opcode map: its rows' match and mask, selection by h & mask = match, the rows disjoint, so that at most one matches; a
decoded command belongs to the row its header selects, a header that selects a row decodes to that row's command, and a
header that matches no row is illegal (30_encoding.md R74). -/
def Obligations.OpcodeRowsAreDisjoint : Prop :=
  opcodeMap = [⟨"KEYW", 0x0100, 0xFFFF⟩, ⟨"KEYB", 0x0200, 0xFF00⟩, ⟨"INIT", 0x0300, 0xFFFF⟩, ⟨"CMPW", 0x0400, 0xFFFF⟩,
    ⟨"CMPL", 0x0500, 0xFFF8⟩, ⟨"FIN", 0x0600, 0xFFFF⟩, ⟨"STAT", 0x0700, 0xFFFF⟩] ∧
  (∀ (row : OpcodeRow) (h : Hdr), row.selects h = true ↔ h &&& row.mask = row.matchBits) ∧
  (∀ (h : Hdr) (a b : OpcodeRow), a ∈ opcodeMap → b ∈ opcodeMap → a.selects h = true → b.selects h = true → a = b) ∧
  (∀ (c : Command) (i : Instr), decode c = .ok i → i.row ∈ opcodeMap ∧ i.row.selects c.hdr = true) ∧
  (∀ (row : OpcodeRow) (c : Command), row ∈ opcodeMap → row.selects c.hdr = true → ∃ i, decode c = .ok i ∧ i.row = row) ∧
  (∀ c : Command, (∀ row ∈ opcodeMap, row.selects c.hdr = false) → ∃ x, decode c = .error x)

/-- The assembler lines encode the instructions they name: KEYB of n bytes, CMPW of eight bytes, CMPL of r bytes, a byte on
the lane of its position; the other lines are the encoder's headers, with k0 in bits 63:0 of KEYW's data
(30_encoding.md R81). -/
def Obligations.AssemblerLinesEncode : Prop :=
  (∀ k0 k1 : Word, encode (.keyw k0 k1) = ⟨0x0100, k1 ++ k0⟩) ∧
  (∀ B : List Byte, B.length = 16 → asmKeyb 16 B = encode (.keyb 16 (dataOfBytes B))) ∧
  (∀ (n : Byte) (B : List Byte), n ≠ 16 → B.length = min n.toNat 16 →
    decode (asmKeyb n.toNat B) = .ok (.keyb n 0)) ∧
  encode .init = ⟨0x0300, 0⟩ ∧
  (∀ B : List Byte, B.length = 8 → asmCmpw B = encode (.cmpw (le64 B))) ∧
  (∀ (r : BitVec 3) (B : List Byte), B.length = r.toNat → asmCmpl r.toNat B = encode (.cmpl r (le64 B))) ∧
  encode .fin = ⟨0x0600, 0⟩ ∧ encode .stat = ⟨0x0700, 0⟩

/-- A command is the 144-bit vector hdr ‖ data and nothing else (30_encoding.md R70). -/
def Obligations.CommandBitsRoundTrip : Prop :=
  (∀ c : Command, commandOfBits c.bits = c ∧ c.bits.toNat = c.hdr.toNat * 2 ^ 128 + c.data.toNat) ∧
  (∀ b : BitVec 144, (commandOfBits b).bits = b)

/-- Data bits a format does not use affect neither legality, nor state, nor the response: commands with one header that
agree on the used bits do the same in every state. The unused bits are those R78 lists (30_encoding.md R78). -/
def Obligations.UnusedDataBitsAreIgnored : Prop :=
  (∀ (h : Hdr) (d e : Data) (s : State), d &&& usedDataMask h = e &&& usedDataMask h →
    execCommand ⟨h, d⟩ s = execCommand ⟨h, e⟩ s) ∧
  usedDataMask 0x0300 = 0 ∧ usedDataMask 0x0600 = 0 ∧ usedDataMask 0x0700 = 0 ∧
  (usedDataMask 0x0400).toNat = 2 ^ 64 - 1 ∧
  (∀ r : BitVec 3, (usedDataMask (0x0500 + r.setWidth 16)).toNat = 2 ^ (8 * r.toNat) - 1) ∧
  (∀ n : Byte, n ≠ 16 → usedDataMask (0x0200 + n.setWidth 16) = 0)

/-! ### Bytes and words -/

/-- le64 is little-endian: byte i of the sequence is bits 8i+7..8i of the word, for every byte value (20_memory.md R52, R53).
A sequence of 8 bytes placed on lanes 0..7 is its own le64 as data[63:0]; the halves of the data operand are le64 of lanes
0..7 and of lanes 8..15 (30_encoding.md R72). -/
def Obligations.Le64IsLittleEndian : Prop :=
  (∀ (B : List Byte) (i : Nat) (hi : i < B.length), B.length = 8 → (le64 B).extractLsb' (8 * i) 8 = B[i]) ∧
  (∀ B : List Byte, B.length = 8 → lowWord (dataOfBytes B) = le64 B) ∧
  (∀ (B : List Byte) (i : Nat) (hi : i < B.length), B.length ≤ 16 → lane (dataOfBytes B) i = B[i]) ∧
  (∀ d : Data, lowWord d = le64 ((laneBytes 16 d).take 8) ∧ highWord d = le64 ((laneBytes 16 d).drop 8))

/-- PadWord's bit layout: tail byte j on lane j for j < r, zero on lanes r..6, the length byte on lane 7; that is
le64 (T ++ (7 - r zero bytes) ++ [L]) (43_pad_final.md R140). -/
def Obligations.PadWordLayout : Prop :=
  ∀ (T : List Byte) (L : Byte), T.length ≤ 7 →
    (∀ (j : Nat) (hj : j < T.length), (padWord T L).extractLsb' (8 * j) 8 = T[j]) ∧
    (∀ j : Nat, T.length ≤ j → j ≤ 6 → (padWord T L).extractLsb' (8 * j) 8 = (0 : Byte)) ∧
    (padWord T L).extractLsb' 56 8 = L ∧
    padWord T L = le64 (T ++ List.replicate (7 - T.length) 0 ++ [L])

/-! ### The ARX datapath -/

/-- Addition is modulo 2^64, the carry discarded (41_arx_round.md R110). -/
def Obligations.AdditionWraps : Prop :=
  ∀ a b : Word, (add64 a b).toNat = (a.toNat + b.toNat) % 2 ^ 64

/-- rotl64 is the 64-bit circular left rotate: bit i moves to bit (i + n) mod 64, no bit is lost
(41_arx_round.md R111). -/
def Obligations.RotationIsCircular : Prop :=
  ∀ (x : Word) (n : Nat), 0 < n → n < 64 →
    rotl64 x n = (x.extractLsb' 0 (64 - n) ++ x.extractLsb' (64 - n) n).setWidth 64 ∧
    (rotl64 x n).toNat = (x.toNat * 2 ^ n) % 2 ^ 64 + x.toNat / 2 ^ (64 - n) ∧
    (∀ i : Nat, i < 64 → (rotl64 x n).getLsbD ((i + n) % 64) = x.getLsbD i)

/-- SipRound is the fourteen assignments s1 to s14 in order, with its worked example (41_arx_round.md R113). -/
def Obligations.SipRoundIsFourteenSteps : Prop :=
  (∀ v : Arx, sipRound v = runSteps (sipS1to4 ++ sipS5to7 ++ sipS8to10 ++ sipS11to14) v) ∧
  sipRound ⟨0x0123456789abcdef, 0xfedcba9876543210, 0x0f1e2d3c4b5a6978, 0x8796a5b4c3d2e1f0⟩ =
    ⟨0x33001123eeddccfd, 0x1d0b375d48a3fad5, 0x88eb2b8cff61c426, 0x177dca9a711bacff⟩

/-- The structure of SipRound (41_arx_round.md R114): (a) s1 to s4 and s5 to s7 may be exchanged, s8 to s10 and s11 to s14
may be exchanged, the two halves may not; (b) the all-zero state is a fixed point and INIT never makes it; (c) SipRound is a
bijection. -/
def Obligations.SipRoundStructure : Prop :=
  (∀ v : Arx, sipRound v = runSteps (sipS5to7 ++ sipS1to4 ++ sipS11to14 ++ sipS8to10) v) ∧
  (∃ v : Arx, sipRound v ≠ runSteps (sipS8to10 ++ sipS11to14 ++ sipS1to4 ++ sipS5to7) v) ∧
  sipRound ⟨0, 0, 0, 0⟩ = ⟨0, 0, 0, 0⟩ ∧
  (∀ k0 k1 : Word, initArx k0 k1 ≠ ⟨0, 0, 0, 0⟩) ∧
  Function.Bijective sipRound

/-- Compress: w into v3, two SipRounds, w into v0; w = 0 still applies the two rounds (41_arx_round.md R115). -/
def Obligations.CompressIsTwoRounds : Prop :=
  (∀ (v0 v1 v2 v3 w u0 u1 u2 u3 : Word), sipRound (sipRound ⟨v0, v1, v2, v3 ^^^ w⟩) = ⟨u0, u1, u2, u3⟩ →
    compress ⟨v0, v1, v2, v3⟩ w = ⟨u0 ^^^ w, u1, u2, u3⟩) ∧
  (∀ v : Arx, compress v 0 = sipRound (sipRound v)) ∧
  compress ⟨0x7469686173716475, 0x6b617f6d656e6665, 0x6b7f62616d677361, 0x7b6b696e727e6c7b⟩ 0x0706050403020100 =
    ⟨0x4a017198de0a59e0, 0x0d52f6f62a4f59a4, 0x634cb3577b01fd3d, 0xa5224d6f55c7d9c8⟩

/-! ### The commands -/

/-- KEYW (40_key.md R100): header 0x0100 with k0 = data[63:0], k1 = data[127:64]; a non-zero argument is IllegalCommand;
outside IDLE SequenceError; in IDLE it always succeeds and writes K0, K1, KV and nothing else. -/
def Obligations.KeywLoadsWordsInIdle : Prop :=
  ∀ s : State,
    (∀ (h : Hdr) (d : Data), opField h = 0x01 → argField h ≠ 0 →
      execCommand ⟨h, d⟩ s = .next { s with
        err := s.err ||| 0b100, responses := s.responses ++ [⟨.exception .illegalCommand, h.setWidth 64⟩] }) ∧
    (∀ d : Data, decode ⟨0x0100, d⟩ = .ok (.keyw (d.extractLsb' 0 64) (d.extractLsb' 64 64))) ∧
    (∀ k0 k1 : Word, s.ph ≠ .idle →
      exec (.keyw k0 k1) s = .next { s with
        err := s.err ||| 0b010, responses := s.responses ++ [⟨.exception .sequenceError, 0x0100⟩] }) ∧
    (∀ k0 k1 : Word, s.ph = .idle →
      exec (.keyw k0 k1) s = .next { s with
        k0 := k0, k1 := k1, kv := true, responses := s.responses ++ [⟨.ok, 0⟩] })

/-- KEYB (40_key.md R101): header 0x0200 + n, every n legal; outside IDLE SequenceError, also when n is not 16; in IDLE n not
16 is InvalidKeyLength, which sets ERR[0] and leaves K0, K1, KV; in IDLE with n = 16 K0 is le64 of lanes 0..7 and K1 of
lanes 8..15, KV is set, nothing else is written. -/
def Obligations.KeybLoadsSixteenBytesInIdle : Prop :=
  ∀ (s : State) (n : Byte),
    (∀ d : Data, decode ⟨0x0200 + n.setWidth 16, d⟩ = .ok (.keyb n (if n = 16 then d else 0))) ∧
    (∀ kb : Data, s.ph ≠ .idle →
      exec (.keyb n kb) s = .next { s with
        err := s.err ||| 0b010,
        responses := s.responses ++ [⟨.exception .sequenceError, 0x0200 + n.setWidth 64⟩] }) ∧
    (∀ kb : Data, s.ph = .idle → n ≠ 16 →
      exec (.keyb n kb) s = .next { s with
        err := s.err ||| 0b001,
        responses := s.responses ++ [⟨.exception .invalidKeyLength, 0x0200 + n.setWidth 64⟩] }) ∧
    (∀ kb : Data, s.ph = .idle → n = 16 →
      exec (.keyb n kb) s = .next { s with
        k0 := le64 ((laneBytes 16 kb).take 8), k1 := le64 ((laneBytes 16 kb).drop 8), kv := true,
        responses := s.responses ++ [⟨.ok, 0⟩] })

/-- INIT (42_init_compress.md R131): IllegalCommand on a non-zero argument; SequenceError without a key or outside IDLE;
otherwise V is the key XOR the four constants, LEN8 is 0, PH is ABSORB, and nothing else is written: the previous V and LEN8
have no influence. -/
def Obligations.InitStartsFromTheKey : Prop :=
  ∀ s : State,
    (∀ (h : Hdr) (d : Data), opField h = 0x03 → argField h ≠ 0 →
      execCommand ⟨h, d⟩ s = .next { s with
        err := s.err ||| 0b100, responses := s.responses ++ [⟨.exception .illegalCommand, h.setWidth 64⟩] }) ∧
    (∀ d : Data, decode ⟨0x0300, d⟩ = .ok .init) ∧
    (s.ph ≠ .idle ∨ s.kv ≠ true →
      exec .init s = .next { s with
        err := s.err ||| 0b010, responses := s.responses ++ [⟨.exception .sequenceError, 0x0300⟩] }) ∧
    (s.ph = .idle → s.kv = true →
      exec .init s = .next { s with
        v := ⟨s.k0 ^^^ 0x736f6d6570736575, s.k1 ^^^ 0x646f72616e646f6d,
              s.k0 ^^^ 0x6c7967656e657261, s.k1 ^^^ 0x7465646279746573⟩,
        len8 := 0, ph := .absorb, responses := s.responses ++ [⟨.ok, 0⟩] })

/-- CMPW (42_init_compress.md R132): m = data[63:0]; IllegalCommand on a non-zero argument; SequenceError outside ABSORB;
in ABSORB V is Compress(V, m), LEN8 gains 8 modulo 256, and nothing else is written, whatever the bytes. -/
def Obligations.CmpwCompressesInAbsorb : Prop :=
  ∀ s : State,
    (∀ (h : Hdr) (d : Data), opField h = 0x04 → argField h ≠ 0 →
      execCommand ⟨h, d⟩ s = .next { s with
        err := s.err ||| 0b100, responses := s.responses ++ [⟨.exception .illegalCommand, h.setWidth 64⟩] }) ∧
    (∀ d : Data, decode ⟨0x0400, d⟩ = .ok (.cmpw (d.extractLsb' 0 64))) ∧
    (∀ m : Word, s.ph ≠ .absorb →
      exec (.cmpw m) s = .next { s with
        err := s.err ||| 0b010, responses := s.responses ++ [⟨.exception .sequenceError, 0x0400⟩] }) ∧
    (∀ m : Word, s.ph = .absorb →
      exec (.cmpw m) s = .next { s with
        v := compress s.v m, len8 := BitVec.ofNat 8 ((s.len8.toNat + 8) % 256),
        responses := s.responses ++ [⟨.ok, 0⟩] })

/-- CMPL (43_pad_final.md R141): r = hdr[2:0], the tail word is data[63:0] & (2^(8r) - 1); IllegalCommand when hdr[7:3] is
not zero; SequenceError outside ABSORB; in ABSORB LEN8 gains r modulo 256, the final word b is the new LEN8 in bits 63:56
over the tail, which is PadWord of the r tail bytes, V is Compress(V, b), PH is PADDED, and nothing else is written. -/
def Obligations.CmplCompressesTheFinalWord : Prop :=
  ∀ s : State,
    (∀ (h : Hdr) (d : Data), opField h = 0x05 → h.extractLsb' 3 5 ≠ (0 : BitVec 5) →
      execCommand ⟨h, d⟩ s = .next { s with
        err := s.err ||| 0b100, responses := s.responses ++ [⟨.exception .illegalCommand, h.setWidth 64⟩] }) ∧
    (∀ (r : BitVec 3) (d : Data), decode ⟨0x0500 + r.setWidth 16, d⟩ =
      .ok (.cmpl r (d.extractLsb' 0 64 &&& BitVec.ofNat 64 (2 ^ (8 * r.toNat) - 1)))) ∧
    (∀ (r : BitVec 3) (t : Word), s.ph ≠ .absorb →
      exec (.cmpl r t) s = .next { s with
        err := s.err ||| 0b010,
        responses := s.responses ++ [⟨.exception .sequenceError, 0x0500 + r.setWidth 64⟩] }) ∧
    (∀ (r : BitVec 3) (t : Word) (len8 : Byte), s.ph = .absorb →
      len8 = BitVec.ofNat 8 ((s.len8.toNat + r.toNat) % 256) →
      exec (.cmpl r t) s = .next { s with
        v := compress s.v ((len8.setWidth 64 <<< 56) ||| (t &&& BitVec.ofNat 64 (2 ^ (8 * r.toNat) - 1))),
        len8 := len8, ph := .padded, responses := s.responses ++ [⟨.ok, 0⟩] } ∧
      (len8.setWidth 64 <<< 56) ||| (t &&& BitVec.ofNat 64 (2 ^ (8 * r.toNat) - 1)) =
        padWord (wordBytes r.toNat t) len8)

/-- FIN (43_pad_final.md R143): IllegalCommand on a non-zero argument; SequenceError outside PADDED; in PADDED the digest is
answered in the response, PH is IDLE, the key, KV and ERR are unchanged; V0..V3 and LEN8 become unspecified, so nothing is
said of them (R144). The draws are the model's own count (log 4). -/
def Obligations.FinAnswersTheDigest : Prop :=
  ∀ s : State,
    (∀ (h : Hdr) (d : Data), opField h = 0x06 → argField h ≠ 0 →
      execCommand ⟨h, d⟩ s = .next { s with
        err := s.err ||| 0b100, responses := s.responses ++ [⟨.exception .illegalCommand, h.setWidth 64⟩] }) ∧
    (∀ d : Data, decode ⟨0x0600, d⟩ = .ok .fin) ∧
    (s.ph ≠ .padded →
      exec .fin s = .next { s with
        err := s.err ||| 0b010, responses := s.responses ++ [⟨.exception .sequenceError, 0x0600⟩] }) ∧
    (∀ u : Arx, s.ph = .padded →
      u = sipRound (sipRound (sipRound (sipRound ⟨s.v.v0, s.v.v1, s.v.v2 ^^^ 0xff, s.v.v3⟩))) →
      ∃ (v' : Arx) (len8' : Byte) (draws' : Nat), exec .fin s = .next { s with
        v := v', len8 := len8', draws := draws', ph := .idle,
        responses := s.responses ++ [⟨.ok, u.v0 ^^^ u.v1 ^^^ u.v2 ^^^ u.v3⟩] })

/-- STAT (44_system_and_composite.md R150): IllegalCommand on a non-zero argument; otherwise, in every phase and with or
without a key, it answers zext_64(STATUS) and writes no state. -/
def Obligations.StatAnswersTheStatus : Prop :=
  ∀ s : State,
    (∀ (h : Hdr) (d : Data), opField h = 0x07 → argField h ≠ 0 →
      execCommand ⟨h, d⟩ s = .next { s with
        err := s.err ||| 0b100, responses := s.responses ++ [⟨.exception .illegalCommand, h.setWidth 64⟩] }) ∧
    (∀ d : Data, decode ⟨0x0700, d⟩ = .ok .stat) ∧
    exec .stat s = .next { s with
      responses := s.responses ++
        [⟨.ok, (0#1 ++ s.err ++ 0#1 ++ BitVec.ofBool s.kv ++ s.ph.code : BitVec (1 + 3 + 1 + 1 + 2)).setWidth 64⟩] }

/-- STATUS by its bits: PH in 1:0, KV in 2, 0 in 3, ERR.KL, SEQ, ILL in 4, 5, 6, 0 in 7 (10_state.md R27). -/
def Obligations.StatusFieldsAreWhereTheTableSays : Prop :=
  ∀ s : State,
    (statusView s).extractLsb' 0 2 = s.ph.code ∧
    (statusView s).getLsbD 2 = s.kv ∧
    (statusView s).getLsbD 3 = false ∧
    (statusView s).getLsbD 4 = s.err.getLsbD 0 ∧
    (statusView s).getLsbD 5 = s.err.getLsbD 1 ∧
    (statusView s).getLsbD 6 = s.err.getLsbD 2 ∧
    (statusView s).getLsbD 7 = false

/-- A state that meets the control invariant never shows a STATUS with PH = 3, nor one with KV = 0 and PH not IDLE
(95_test_vectors.md 2.11). -/
def Obligations.StatusNeverShowsAnOpenPhaseWithoutKey : Prop :=
  ∀ s : State, ControlInv s →
    (statusView s).extractLsb' 0 2 ≠ (3 : BitVec 2) ∧
    ((statusView s).getLsbD 2 = false → (statusView s).extractLsb' 0 2 = (0 : BitVec 2))

/-- In IDLE, KEYB with n = 16 and KEYW with the same 128 data bits have the same effect and the same response (40_key.md R102;
refused, each answers with its own header, log 13). -/
def Obligations.KeybOfSixteenIsKeyw : Prop :=
  ∀ (d : Data) (s : State), s.ph = .idle → execCommand ⟨0x0210, d⟩ s = execCommand ⟨0x0100, d⟩ s

/-! ### The key registers -/

/-- No command but an accepted KEYW or KEYB writes K0, K1 or KV, and these are accepted only in IDLE: the key cannot change
between an INIT and its FIN (40_key.md R103, 10_state.md R22, R23). -/
def Obligations.OnlyAcceptedKeyLoadsWriteTheKey : Prop :=
  ∀ (c : Command) (s t : State), execCommand c s = .next t →
    (acceptedKey c s = none → t.k0 = s.k0 ∧ t.k1 = s.k1 ∧ t.kv = s.kv) ∧
    (∀ k0 k1 : Word, acceptedKey c s = some (k0, k1) → s.ph = .idle ∧ t.k0 = k0 ∧ t.k1 = k1 ∧ t.kv = true)

/-! ### Exceptions -/

/-- The table of preconditions, cell by cell: a legal command is refused with the exception of its cell, or accepted and led
to the phase of its cell; an illegal header is IllegalCommand in every column; KV becomes 1 on an accepted key load;
KV = 0 together with ABSORB or PADDED cannot occur: not after reset, and no step leads there from elsewhere
(60_exceptions.md R172). -/
def Obligations.SequenceTable : Prop :=
  (∀ (i : Instr) (s : State), ∃ (t : State) (r : Response),
    exec i s = .next t ∧ t.responses = s.responses ++ [r] ∧
    (∀ p : Phase, tableEntry i s.ph s.kv = .ok p → r.code = .ok ∧ t.ph = p) ∧
    (∀ e : Exception, tableEntry i s.ph s.kv = .error e → r.code = .exception e ∧ t.ph = s.ph)) ∧
  (∀ (c : Command) (x : IllegalHeader) (s : State), decode c = .error x → ∃ (t : State) (r : Response),
    execCommand c s = .next t ∧ t.responses = s.responses ++ [r] ∧ r.code = .exception .illegalCommand ∧ t.ph = s.ph) ∧
  (∀ (k0 k1 : Word) (kb : Data) (s t : State), s.ph = .idle →
    exec (.keyw k0 k1) s = .next t ∨ exec (.keyb 16 kb) s = .next t → t.kv = true) ∧
  State.reset.ph = .idle ∧
  (∀ s t : State, (s.ph ≠ .idle → s.kv = true) → step s = .next t → t.ph ≠ .idle → t.kv = true)

/-- A command reports the first exception that applies, in the order IllegalCommand, SequenceError, InvalidKeyLength, and
records exactly that one; it answers OK when none applies (60_exceptions.md R174). -/
def Obligations.FirstExceptionIsReported : Prop :=
  ∀ (c : Command) (s : State), ∃ (t : State) (d : Word),
    execCommand c s = .next t ∧
    (∀ e : Exception, firstException c s.ph s.kv = some e →
      t.responses = s.responses ++ [⟨.exception e, d⟩] ∧ t.err = s.err ||| e.errBit) ∧
    (firstException c s.ph s.kv = none → t.responses = s.responses ++ [⟨.ok, d⟩] ∧ t.err = s.err)

/-- What an exception does: its ERR bit is set, no other state changes, the response is (its code, zext_64(hdr))
(60_exceptions.md R175). -/
def Obligations.ExceptionChangesOnlyErr : Prop :=
  ∀ (c : Command) (s t : State) (e : Exception) (d : Word),
    execCommand c s = .next t → t.responses = s.responses ++ [⟨.exception e, d⟩] →
    d = c.hdr.setWidth 64 ∧ t = { s with err := s.err ||| e.errBit, responses := s.responses ++ [⟨.exception e, d⟩] }

/-- InvalidKeyLength is raised by KEYB, and only by KEYB, exactly when n is not 16 and the phase is IDLE; a key
loaded earlier remains loaded (60_exceptions.md R171). -/
def Obligations.InvalidKeyLengthOnlyFromKeyb : Prop :=
  (∀ (c : Command) (s : State),
    (∃ d : Word, Answers c s ⟨.exception .invalidKeyLength, d⟩) ↔
      opField c.hdr = 0x02 ∧ argField c.hdr ≠ 16 ∧ s.ph = .idle) ∧
  (∀ (c : Command) (s t : State) (d : Word), execCommand c s = .next t →
    t.responses = s.responses ++ [⟨.exception .invalidKeyLength, d⟩] →
    t = { s with err := s.err ||| 0b001, responses := s.responses ++ [⟨.exception .invalidKeyLength, c.hdr.setWidth 64⟩] })

/-- No exception depends on message bytes, key bytes or the value of V0..V3: the response code is a function of the header,
PH and KV (60_exceptions.md R170). -/
def Obligations.CodeDependsOnHeaderPhaseAndKeyValidOnly : Prop :=
  ∀ (h : Hdr) (d d' : Data) (s s' : State) (r r' : Response),
    s.ph = s'.ph → s.kv = s'.kv → Answers ⟨h, d⟩ s r → Answers ⟨h, d'⟩ s' r' → r.code = r'.code

/-- ERR is sticky: a command sets at most the one bit of the exception it reports and clears none; ERR never influences how a
command executes: with another ERR the same command does the same, but for ERR itself and the STATUS that STAT answers
(10_state.md R26, 60_exceptions.md R177). -/
def Obligations.ErrIsStickyAndInert : Prop :=
  ∀ (c : Command) (s t : State), execCommand c s = .next t →
    ∃ b : BitVec 3, t.err = s.err ||| b ∧ (b = 0 ∨ b = 1 ∨ b = 2 ∨ b = 4) ∧
      ∀ e : BitVec 3, ∃ t' : State, execCommand c { s with err := e } = .next t' ∧ t'.err = e ||| b ∧
        (decode c ≠ .ok .stat → t' = { t with err := e ||| b }) ∧
        (decode c = .ok .stat → t' = { t with err := e, responses := t'.responses })

/-! ### Responses -/

/-- Every command is answered by exactly one response. Accepted: OK with 0, with the digest for FIN, with STATUS for STAT.
Refused: the exception's code with the header, zero-extended (30_encoding.md R79). The codes are 0 to 3, codes 4 .. 15 are never produced
(R80). -/
def Obligations.EveryCommandIsAnsweredOnce : Prop :=
  RespCode.ok.code = 0 ∧ (RespCode.exception .invalidKeyLength).code = 1 ∧
  (RespCode.exception .sequenceError).code = 2 ∧ (RespCode.exception .illegalCommand).code = 3 ∧
  ∀ (c : Command) (s : State), ∃ (t : State) (r : Response),
    execCommand c s = .next t ∧ t.responses = s.responses ++ [r] ∧ t.pending = s.pending ∧
    r.code.code.toNat ≤ 3 ∧
    (r.code = .ok → ∃ i : Instr, decode c = .ok i ∧
      (i = .fin → r.rdata = digestOf s.v) ∧
      (i = .stat → r.rdata = (statusView s).setWidth 64) ∧
      (i ≠ .fin → i ≠ .stat → r.rdata = 0)) ∧
    (r.code ≠ .ok → r.rdata = c.hdr.setWidth 64)

/-- No command but FIN lets anything of V0..V3, K0, K1 or LEN8 out: its response is a function of the command, PH, KV and ERR
(10_state.md R21, R22; 60_exceptions.md R183). -/
def Obligations.OnlyFinRevealsTheState : Prop :=
  ∀ (c : Command) (s s' : State) (r r' : Response), decode c ≠ .ok .fin →
    s.ph = s'.ph → s.kv = s'.kv → s.err = s'.err → Answers c s r → Answers c s' r' → r = r'

/-- States that differ only in unspecified registers cannot be told apart: each step leads from such a pair to such a pair,
with the same responses (10_state.md R30, 93_implementation_defined.md S1, S2). -/
def Obligations.UnspecifiedRegistersAreUnobservable : Prop :=
  ∀ s t : State, Alike s t → ∃ s' t' : State, step s = .next s' ∧ step t = .next t' ∧ Alike s' t'

/-! ### Reset -/

/-- After reset PH is IDLE, KV is 0, ERR is 000 and STATUS is 0x00; of K0, K1, V0..V3 and LEN8 nothing is said, as the spec
says nothing (10_state.md R31). -/
def Obligations.ResetState : Prop :=
  State.reset.ph = .idle ∧ State.reset.kv = false ∧ State.reset.err = 0 ∧ statusView State.reset = 0x00

/-- The reset event, at any moment: PH = IDLE, KV = 0, ERR = 000, no response; nothing is said of K0, K1, V0..V3 and LEN8
(70_reset_and_hazards.md R200, R201). The draws are the model's own count (log 4). -/
def Obligations.ResetEventClearsControlState : Prop :=
  ∀ (s : State) (rest : List HostEvent), s.pending = .reset :: rest →
    ∃ (v' : Arx) (k0' k1' : Word) (len8' : Byte) (draws' : Nat), step s = .next { s with
      v := v', k0 := k0', k1 := k1', len8 := len8', draws := draws',
      ph := .idle, kv := false, err := 0, pending := rest }

/-- Reset is the only way to clear ERR or KV and the only way to abandon a computation: a step that is not a reset clears no
ERR bit, does not clear KV, and leaves an open phase only forward, ABSORB to PADDED or PADDED to IDLE with the digest answered
(70_reset_and_hazards.md R201, 10_state.md R23, R24). -/
def Obligations.OnlyResetClearsOrAbandons : Prop :=
  ∀ s t : State, step s = .next t → s.pending.head? ≠ some .reset →
    s.err &&& t.err = s.err ∧ (s.kv = true → t.kv = true) ∧
    (s.ph = .absorb → t.ph = .absorb ∨ t.ph = .padded) ∧
    (s.ph = .padded → t.ph = .padded ∨ (t.ph = .idle ∧ t.responses = s.responses ++ [⟨.ok, digestOf s.v⟩]))

/-- The only transitions of PH: IDLE to ABSORB by an accepted INIT, ABSORB to PADDED by an accepted CMPL, PADDED to IDLE by an
accepted FIN, any value to IDLE by reset; a refused command never changes PH (10_state.md R24). -/
def Obligations.PhaseTransitions : Prop :=
  (∀ (c : Command) (s t : State), execCommand c s = .next t →
    (t.ph ≠ s.ph →
      (s.ph = .idle ∧ t.ph = .absorb ∧ decode c = .ok .init) ∨
      (s.ph = .absorb ∧ t.ph = .padded ∧ isCmpl c = true) ∨
      (s.ph = .padded ∧ t.ph = .idle ∧ decode c = .ok .fin)) ∧
    (∀ r : Response, t.responses = s.responses ++ [r] → r.code ≠ .ok → t.ph = s.ph)) ∧
  (∀ s : State, ∃ t : State, runEvent .reset s = .next t ∧ t.ph = .idle)

/-! ### The step -/

/-- A step runs the command presented: when it decodes to i, the step is exec of i on the state with that command taken from
the host's list; the decoder gives well-formed instructions only (20_memory.md R59, 10_state.md R28). -/
def Obligations.StepRunsTheDecodedCommand : Prop :=
  ∀ (c : Command) (i : Instr) (rest : List HostEvent) (s : State),
    s.pending = .command c :: rest → decode c = .ok i →
    i.wellFormed = true ∧ step s = exec i { s with pending := rest }

/-- A step on an illegal header is the IllegalCommand exception (60_exceptions.md R173, R175). -/
def Obligations.StepRefusesIllegalCommand : Prop :=
  ∀ (c : Command) (x : IllegalHeader) (rest : List HostEvent) (s : State),
    s.pending = .command c :: rest → decode c = .error x →
    step s = .next { s with
      pending := rest, err := s.err ||| 0b100,
      responses := s.responses ++ [⟨.exception .illegalCommand, c.hdr.setWidth 64⟩] }

/-- An engine that is given no command does nothing and keeps its state, in any phase (60_exceptions.md R184). -/
def Obligations.IdleEngineKeepsItsState : Prop :=
  ∀ s : State, s.pending = [] → step s = .next s

/-- Every step answers a next state: the engine never stops by itself, and as many steps as there are host events take all
of them (70_reset_and_hazards.md R207, R208). -/
def Obligations.EngineNeverStops : Prop :=
  (∀ s : State, ∃ t : State, step s = .next t) ∧
  (∀ s : State, ∃ t : State, Sys2Proof.core.run s.pending.length s = .next t ∧ t.pending = [])

/-- Presenting commands one after another is stepping through them: the state after n commands is a function of the state
before and those commands (20_memory.md R59). -/
def Obligations.StepsRunTheCommandsInOrder : Prop :=
  ∀ (cs : List Command) (s t : State), s.pending = [] → runCommands cs s = .next t →
    Sys2Proof.core.run cs.length { s with pending := cs.map .command } = .next t

/-! ### Invariants -/

/-- The control invariant holds after reset (10_state.md R31). -/
def Obligations.ResetMeetsControlInv : Prop := ControlInv State.reset

/-- Every step keeps the control invariant: outside IDLE a key is loaded, in ABSORB LEN8 is a multiple of 8
(60_exceptions.md R172, 43_pad_final.md R142). -/
def Obligations.EveryStepKeepsControlInv : Prop :=
  ∀ s t : State, ControlInv s → step s = .next t → ControlInv t

/-- The hash invariant holds after reset. -/
def Obligations.ResetMeetsHashInv : Prop := HashInv State.reset

/-- Every step keeps the hash invariant: the ARX words and LEN8 are always those of the SipHash-2-4 computation, under the
loaded key, of some bytes (10_state.md R25, 44_system_and_composite.md R151, R154). -/
def Obligations.EveryStepKeepsHashInv : Prop :=
  ∀ s t : State, HashInv s → step s = .next t → HashInv t

/-- So the engine's output is always the SipHash-2-4 of some message under the loaded key, "never an out-of-specification
value" (44_system_and_composite.md R154). -/
def Obligations.EveryDigestIsASipHash : Prop :=
  ∀ s : State, HashInv s → s.ph = .padded →
    ∃ (t : State) (M : List Byte), exec .fin s = .next t ∧
      t.responses = s.responses ++ [⟨.ok, sipHash24 s.k0 s.k1 M⟩] ∧ s.len8 = BitVec.ofNat 8 M.length

/-! ### The whole computation -/

/-- The length law: after INIT, q accepted CMPW and one accepted CMPL with tail count r, LEN8 is (8q + r) mod 256 and is the
length byte of the final word; the addition at CMPL never wraps, and LEN8 mod 8 = r (43_pad_final.md R142). -/
def Obligations.LengthLaw : Prop :=
  ∀ (W : List Word) (r : BitVec 3) (t : Word) (s : State), s.ph = .idle → s.kv = true →
    ∃ u u' : State,
      runCommands (encode .init :: W.map fun m => encode (.cmpw m)) s = .next u ∧
      u.ph = .absorb ∧ u.len8.toNat = 8 * W.length % 256 ∧ u.len8.toNat + r.toNat < 256 ∧
      exec (.cmpl r t) u = .next u' ∧
      u'.len8.toNat = (8 * W.length + r.toNat) % 256 ∧ u'.len8.toNat % 8 = r.toNat ∧
      u'.v = compress u.v (padWord (wordBytes r.toNat t) u'.len8) ∧
      (padWord (wordBytes r.toNat t) u'.len8).extractLsb' 56 8 = u'.len8

/-- Correspondence: with a key loaded and in IDLE, an INIT, any commands that are no CMPL, a CMPL, any commands that are no
FIN, and a FIN answer with SipHash24 of exactly the bytes of the CMPW and CMPL commands accepted, whatever STAT and refused
commands stand in between (44_system_and_composite.md R154). -/
def Obligations.DigestIsSipHashOfTheBytesPresented : Prop :=
  ∀ (s : State) (ci cl cf : Command) (body rest : List Command) (r : BitVec 3) (t : Word),
    s.ph = .idle → s.kv = true →
    decode ci = .ok .init → decode cl = .ok (.cmpl r t) → decode cf = .ok .fin →
    (∀ c ∈ body, isCmpl c = false) → (∀ c ∈ rest, isFin c = false) →
    ∃ u : State, runCommands (ci :: (body ++ cl :: (rest ++ [cf]))) s = .next u ∧ u.ph = .idle ∧
      lastResponse u = some ⟨.ok, sipHash24 s.k0 s.k1 (messageOf (presentedWords body) r t)⟩

/-- HASHW on an engine in IDLE raises no exception and its FIN answers SipHash24(k0, k1, M), for every key and every message;
it is q + 4 commands (44_system_and_composite.md R152, R156). -/
def Obligations.HashwAnswersSipHash : Prop :=
  ∀ (k0 k1 : Word) (M : List Byte) (s : State), s.ph = .idle →
    (hashw k0 k1 M).length = M.length / 8 + 4 ∧
    ∃ u : State, runCommands (hashw k0 k1 M) s = .next u ∧ u.ph = .idle ∧ u.err = s.err ∧
      u.responses = s.responses ++ List.replicate (M.length / 8 + 3) ⟨.ok, 0⟩ ++ [⟨.ok, sipHash24 k0 k1 M⟩]

/-- HASHB: with 16 key bytes the digest under the key decoded little-endian, no exception; with any other number exactly
InvalidKeyLength at the first command, and nothing else happens (44_system_and_composite.md R153, R156). -/
def Obligations.HashbAnswersSipHashOrInvalidKeyLength : Prop :=
  ∀ (KB M : List Byte) (s : State), s.ph = .idle →
    (KB.length = 16 → ∃ u : State, hashb KB M s = .next u ∧ u.ph = .idle ∧ u.err = s.err ∧
      u.responses = s.responses ++ List.replicate (M.length / 8 + 3) ⟨.ok, 0⟩ ++
        [⟨.ok, sipHash24 (le64 (KB.take 8)) (le64 (KB.drop 8)) M⟩]) ∧
    (KB.length ≠ 16 → hashb KB M s = .next { s with
      err := s.err ||| 0b001,
      responses := s.responses ++
        [⟨.exception .invalidKeyLength, 0x0200 + BitVec.ofNat 64 (min KB.length 255)⟩] })

/-- The host reads the message sequentially, each byte exactly once and never outside its range: the full blocks in order
and then the tail are the message (20_memory.md R51, R54). -/
def Obligations.MessageIsReadOnceInOrder : Prop :=
  ∀ M : List Byte,
    (List.range (fullWords M)).flatMap (blockBytes M) ++ tailOf M = M ∧
    (∀ i : Nat, i < fullWords M → 8 * i + 8 ≤ M.length ∧ (blockBytes M i).length = 8) ∧
    8 * fullWords M + M.length % 8 = M.length ∧ (tailOf M).length = M.length % 8

/-! ### Several instances -/

/-- Instances share nothing: a step of instance k is the step of that instance's own state and leaves every other instance as
it was (10_state.md R33, 60_exceptions.md R182). -/
def Obligations.InstancesAreIndependent : Prop :=
  ∀ (S : System) (k : Nat) (s : State), S.instances[k]? = some s →
    ∃ (S' : System) (t : State), S.stepAt k = some S' ∧ step s = .next t ∧ S'.instances[k]? = some t ∧
      S'.instances.length = S.instances.length ∧ ∀ j : Nat, j ≠ k → S'.instances[j]? = S.instances[j]?
end

