-- ==== Sys2Proof/Laws/Bytes.lean ====
section
/-! SUPPORT. What is proved of bytes and words: one lemma per operation, bit by bit. -/

namespace Sys2Proof.Machine

/-- Bit i of le64 is bit i mod 8 of byte i / 8 (20_memory.md R52); a byte past the end counts as zero. -/
theorem le64_getLsbD (B : List Byte) : ∀ i, i < 64 → (le64 B).getLsbD i = (B[i / 8]?.getD 0).getLsbD (i % 8) := by
  induction B with
  | nil => intro i hi; simp [le64]
  | cons b bs ih =>
    intro i hi
    simp only [le64, BitVec.getLsbD_or, BitVec.getLsbD_shiftLeft, BitVec.getLsbD_setWidth]
    by_cases h : i < 8
    · have e1 : i / 8 = 0 := by omega
      have e2 : i % 8 = i := by omega
      simp [h, hi, e1, e2]
    · have e1 : i / 8 = (i - 8) / 8 + 1 := by omega
      have e2 : i % 8 = (i - 8) % 8 := by omega
      rw [e1, e2, ih (i-8) (by omega)]
      have : BitVec.getLsbD b i = false := BitVec.getLsbD_of_ge _ _ (by omega)
      simp [h, hi, this]

/-- Bit i of the lanes is bit i mod 8 of byte i / 8 (30_encoding.md R72). -/
theorem dataOfBytes_getLsbD (B : List Byte) :
    ∀ i, i < 128 → (dataOfBytes B).getLsbD i = (B[i / 8]?.getD 0).getLsbD (i % 8) := by
  induction B with
  | nil => intro i hi; simp [dataOfBytes]
  | cons b bs ih =>
    intro i hi
    simp only [dataOfBytes, BitVec.getLsbD_or, BitVec.getLsbD_shiftLeft, BitVec.getLsbD_setWidth]
    by_cases h : i < 8
    · have e1 : i / 8 = 0 := by omega
      have e2 : i % 8 = i := by omega
      simp [h, hi, e1, e2]
    · have e1 : i / 8 = (i - 8) / 8 + 1 := by omega
      have e2 : i % 8 = (i - 8) % 8 := by omega
      rw [e1, e2, ih (i-8) (by omega)]
      have : BitVec.getLsbD b i = false := BitVec.getLsbD_of_ge _ _ (by omega)
      simp [h, hi, this]

/-- The byte on lane i of a list of lanes. -/
theorem laneBytes_getD (d : Data) (n i : Nat) : (laneBytes n d)[i]?.getD 0 = if i < n then lane d i else 0 := by
  simp only [laneBytes, List.getElem?_map]
  by_cases h : i < n <;> simp [h]

/-- The byte on lane i of a word's bytes. -/
theorem wordBytes_getD (n : Nat) (w : Word) (i : Nat) :
    (wordBytes n w)[i]?.getD 0 = if i < n then w.extractLsb' (8*i) 8 else 0 := by
  simp only [wordBytes, List.getElem?_map]
  by_cases h : i < n <;> simp [h]

/-- A word's first n bytes are n. -/
theorem wordBytes_length (n : Nat) (w : Word) : (wordBytes n w).length = n := by simp [wordBytes]

theorem tailMask_ofNat_toNat :
    ∀ r : BitVec 3, (BitVec.ofNat 64 (2 ^ (8 * r.toNat) - 1)).toNat = 2 ^ (8 * r.toNat) - 1 := by decide

/-- The tail mask keeps the bits of lanes 0..r-1 (30_encoding.md R75). -/
theorem tailMask_getLsbD (r : BitVec 3) (i : Nat) : (tailMask r).getLsbD i = decide (i < 8 * r.toNat) := by
  rw [BitVec.getLsbD, tailMask, tailMask_ofNat_toNat, Nat.testBit_two_pow_sub_one]

/-- The tail word is le64 of its r bytes (30_encoding.md R75, 43_pad_final.md R140). -/
theorem tailWord_eq_le64 (r : BitVec 3) (t : Word) : tailWord r t = le64 (wordBytes r.toNat t) := by
  apply BitVec.eq_of_getLsbD_eq; intro j hj
  rw [le64_getLsbD _ _ hj, wordBytes_getD, tailWord, BitVec.getLsbD_and, tailMask_getLsbD]
  by_cases h : j < 8 * r.toNat
  · have : j / 8 < r.toNat := by omega
    have e : 8 * (j / 8) + j % 8 = j := by omega
    have e2 : j % 8 < 8 := by omega
    simp only [this, h, if_true, BitVec.getLsbD_extractLsb', e, e2]; simp
  · have : ¬ j / 8 < r.toNat := by omega
    simp [this, h]

end Sys2Proof.Machine
end

