-- ==== Sys2Proof/Laws/Decode.lean ====
section
/-! SUPPORT. What is proved of the decoder and the encoder: which headers each row of the opcode map selects, what the decoder
gives at each legal header, and the case split on a command that every later proof cites instead of unfolding `decode`. -/

namespace Sys2Proof

/-! ### Headers and rows -/

/-- A header is its opcode above its argument (30_encoding.md R71). -/
theorem hdr_eq_append (h : Hdr) : h = (opField h ++ argField h : BitVec (8 + 8)) := by
  apply BitVec.eq_of_getLsbD_eq
  intro i hi
  simp only [opField, argField, BitVec.getLsbD_append, BitVec.getLsbD_extractLsb']
  by_cases h8 : i < 8
  · simp [h8]
  · have : i - 8 < 8 := by omega
    have e : 8 + (i - 8) = i := by omega
    simp [h8, this, e]

/-- Two headers are equal when their opcodes and their arguments are. -/
theorem hdr_ext {h g : Hdr} (ho : opField h = opField g) (ha : argField h = argField g) : h = g := by
  rw [hdr_eq_append h, hdr_eq_append g, ho, ha]

theorem hdr_eq_iff {h g : Hdr} : h = g ↔ opField h = opField g ∧ argField h = argField g :=
  ⟨fun e => e ▸ ⟨rfl, rfl⟩, fun e => hdr_ext e.1 e.2⟩

theorem append_and_append (a a' b b' : Byte) :
    (a ++ b : BitVec (8 + 8)) &&& (a' ++ b') = (a &&& a') ++ (b &&& b') := by
  apply BitVec.eq_of_getLsbD_eq
  intro i hi
  simp only [BitVec.getLsbD_and, BitVec.getLsbD_append]
  split <;> simp

theorem and_ff00 (h : Hdr) : h &&& 0xFF00 = (opField h ++ (0 : Byte) : BitVec (8 + 8)) := by
  have m : (0xFF00 : Hdr) = (BitVec.allOnes 8 ++ (0 : Byte) : BitVec (8 + 8)) := by decide
  conv_lhs => rw [hdr_eq_append h, m]
  exact (append_and_append _ _ _ _).trans (by rw [BitVec.and_allOnes]; congr 1; exact BitVec.and_zero)

theorem and_fff8 (h : Hdr) :
    h &&& 0xFFF8 = (opField h ++ (argField h &&& 0xF8 : Byte) : BitVec (8 + 8)) := by
  have m : (0xFFF8 : Hdr) = (BitVec.allOnes 8 ++ (0xF8 : Byte) : BitVec (8 + 8)) := by decide
  conv_lhs => rw [hdr_eq_append h, m]
  exact (append_and_append _ _ _ _).trans (by rw [BitVec.and_allOnes])

theorem and_ffff (h : Hdr) : h &&& 0xFFFF = h := BitVec.and_allOnes (x := h)

theorem append_eq_iff {a a' b b' : Byte} :
    (a ++ b : BitVec (8 + 8)) = (a' ++ b' : BitVec (8 + 8)) ↔ a = a' ∧ b = b' := by
  constructor
  · intro e
    constructor <;> apply BitVec.eq_of_getLsbD_eq <;> intro i hi
    · have := congrArg (fun x : BitVec (8 + 8) => x.getLsbD (8 + i)) e
      simp only [BitVec.getLsbD_append] at this
      simpa using this
    · have := congrArg (fun x : BitVec (8 + 8) => x.getLsbD i) e
      simp only [BitVec.getLsbD_append, hi] at this
      simpa using this
  · rintro ⟨rfl, rfl⟩; rfl

theorem selects_keyw_iff (h : Hdr) : rowKeyw.selects h = true ↔ h = 0x0100 := by
  simp only [OpcodeRow.selects, rowKeyw, beq_iff_eq, and_ffff]
theorem selects_init_iff (h : Hdr) : rowInit.selects h = true ↔ h = 0x0300 := by
  simp only [OpcodeRow.selects, rowInit, beq_iff_eq, and_ffff]
theorem selects_cmpw_iff (h : Hdr) : rowCmpw.selects h = true ↔ h = 0x0400 := by
  simp only [OpcodeRow.selects, rowCmpw, beq_iff_eq, and_ffff]
theorem selects_fin_iff (h : Hdr) : rowFin.selects h = true ↔ h = 0x0600 := by
  simp only [OpcodeRow.selects, rowFin, beq_iff_eq, and_ffff]
theorem selects_stat_iff (h : Hdr) : rowStat.selects h = true ↔ h = 0x0700 := by
  simp only [OpcodeRow.selects, rowStat, beq_iff_eq, and_ffff]

theorem selects_keyb_iff (h : Hdr) : rowKeyb.selects h = true ↔ h = 0x0200 + (argField h).setWidth 16 := by
  have m : (0x0200 : Hdr) = ((2 : Byte) ++ (0 : Byte) : BitVec (8 + 8)) := by decide
  have k : ∀ a : Byte, (0x0200 : Hdr) + a.setWidth 16 = ((2 : Byte) ++ a : BitVec (8 + 8)) := by decide
  simp only [OpcodeRow.selects, rowKeyb, beq_iff_eq, and_ff00]
  rw [m, append_eq_iff, ← m, k, hdr_eq_append h, append_eq_iff, ← hdr_eq_append h]
  simp

theorem selects_cmpl_iff (h : Hdr) : rowCmpl.selects h = true ↔ h = 0x0500 + (tailCount h).setWidth 16 := by
  have m : (0x0500 : Hdr) = ((5 : Byte) ++ (0 : Byte) : BitVec (8 + 8)) := by decide
  have k : ∀ a : BitVec 3,
      (0x0500 : Hdr) + a.setWidth 16 = ((5 : Byte) ++ (a.setWidth 8 : Byte) : BitVec (8 + 8)) := by decide
  have t : tailCount h = (argField h).extractLsb' 0 3 := by
    simp only [tailCount, argField]
    apply BitVec.eq_of_getLsbD_eq; intro i hi
    simp [hi]
  have n : ∀ a : Byte, a &&& 0xF8 = 0 ↔ a = (a.extractLsb' 0 3).setWidth 8 := by decide
  simp only [OpcodeRow.selects, rowCmpl, beq_iff_eq, and_fff8]
  rw [m, append_eq_iff, ← m, k, hdr_eq_append h, append_eq_iff, ← hdr_eq_append h, t, n]

/-! ### The decoder at each legal header -/

theorem decode_keyw (d : Data) : decode ⟨0x0100, d⟩ = .ok (.keyw (lowWord d) (highWord d)) := by
  have h : rowKeyw.selects 0x0100 = true := by decide
  simp only [decode, h]; rfl
theorem decode_init (d : Data) : decode ⟨0x0300, d⟩ = .ok .init := by
  have h : rowKeyw.selects 0x0300 = false ∧ rowKeyb.selects 0x0300 = false ∧ rowInit.selects 0x0300 = true ∧
      rowCmpw.selects 0x0300 = false ∧ rowCmpl.selects 0x0300 = false ∧ rowFin.selects 0x0300 = false ∧
      rowStat.selects 0x0300 = false := by decide
  simp only [decode, h]; rfl
theorem decode_cmpw (d : Data) : decode ⟨0x0400, d⟩ = .ok (.cmpw (lowWord d)) := by
  have h : rowKeyw.selects 0x0400 = false ∧ rowKeyb.selects 0x0400 = false ∧ rowInit.selects 0x0400 = false ∧
      rowCmpw.selects 0x0400 = true := by decide
  simp only [decode, h]; rfl
theorem decode_fin (d : Data) : decode ⟨0x0600, d⟩ = .ok .fin := by
  have h : rowKeyw.selects 0x0600 = false ∧ rowKeyb.selects 0x0600 = false ∧ rowInit.selects 0x0600 = false ∧
      rowCmpw.selects 0x0600 = false ∧ rowCmpl.selects 0x0600 = false ∧ rowFin.selects 0x0600 = true ∧
      rowStat.selects 0x0600 = false := by decide
  simp only [decode, h]; rfl
theorem decode_stat (d : Data) : decode ⟨0x0700, d⟩ = .ok .stat := by
  have h : rowKeyw.selects 0x0700 = false ∧ rowKeyb.selects 0x0700 = false ∧ rowInit.selects 0x0700 = false ∧
      rowCmpw.selects 0x0700 = false ∧ rowCmpl.selects 0x0700 = false ∧ rowFin.selects 0x0700 = false ∧
      rowStat.selects 0x0700 = true := by decide
  simp only [decode, h]; rfl

theorem fields_keyb : ∀ n : Byte,
    opField (0x0200 + n.setWidth 16) = 2 ∧ argField (0x0200 + n.setWidth 16) = n := by decide

theorem fields_cmpl : ∀ r : BitVec 3,
    opField (0x0500 + r.setWidth 16) = 5 ∧ tailCount (0x0500 + r.setWidth 16) = r := by decide

theorem decode_keyb (n : Byte) (d : Data) : decode ⟨0x0200 + n.setWidth 16, d⟩ = .ok (.keyb n (keyLanes n d)) := by
  have h : ∀ n : Byte, rowKeyw.selects (0x0200 + n.setWidth 16) = false ∧
      rowKeyb.selects (0x0200 + n.setWidth 16) = true := by decide
  simp only [decode, (h n).1, (h n).2, (fields_keyb n).2]; rfl
theorem decode_cmpl (r : BitVec 3) (d : Data) :
    decode ⟨0x0500 + r.setWidth 16, d⟩ = .ok (.cmpl r (tailWord r (lowWord d))) := by
  have h : ∀ r : BitVec 3, rowKeyw.selects (0x0500 + r.setWidth 16) = false ∧
      rowKeyb.selects (0x0500 + r.setWidth 16) = false ∧ rowInit.selects (0x0500 + r.setWidth 16) = false ∧
      rowCmpw.selects (0x0500 + r.setWidth 16) = false ∧
      rowCmpl.selects (0x0500 + r.setWidth 16) = true := by decide
  obtain ⟨a, b, c, d', e⟩ := h r
  simp only [decode, a, b, c, d', e, (fields_cmpl r).2]; rfl

/-- Every command is one of the seven, by its header, or illegal. -/
theorem decode_cases (c : Command) :
    (c.hdr = 0x0100 ∧ decode c = .ok (.keyw (lowWord c.data) (highWord c.data))) ∨
    (c.hdr = 0x0200 + (argField c.hdr).setWidth 16 ∧
      decode c = .ok (.keyb (argField c.hdr) (keyLanes (argField c.hdr) c.data))) ∨
    (c.hdr = 0x0300 ∧ decode c = .ok .init) ∨
    (c.hdr = 0x0400 ∧ decode c = .ok (.cmpw (lowWord c.data))) ∨
    (c.hdr = 0x0500 + (tailCount c.hdr).setWidth 16 ∧
      decode c = .ok (.cmpl (tailCount c.hdr) (tailWord (tailCount c.hdr) (lowWord c.data)))) ∨
    (c.hdr = 0x0600 ∧ decode c = .ok .fin) ∨
    (c.hdr = 0x0700 ∧ decode c = .ok .stat) ∨
    ((opcodeMap.any fun row => row.selects c.hdr) = false ∧ decode c = .error (illegalCase c.hdr)) := by
  unfold decode
  split
  · exact .inl ⟨(selects_keyw_iff _).1 ‹_›, rfl⟩
  split
  · exact .inr (.inl ⟨(selects_keyb_iff _).1 ‹_›, rfl⟩)
  split
  · exact .inr (.inr (.inl ⟨(selects_init_iff _).1 ‹_›, rfl⟩))
  split
  · exact .inr (.inr (.inr (.inl ⟨(selects_cmpw_iff _).1 ‹_›, rfl⟩)))
  split
  · exact .inr (.inr (.inr (.inr (.inl ⟨(selects_cmpl_iff _).1 ‹_›, rfl⟩))))
  split
  · exact .inr (.inr (.inr (.inr (.inr (.inl ⟨(selects_fin_iff _).1 ‹_›, rfl⟩)))))
  split
  · exact .inr (.inr (.inr (.inr (.inr (.inr (.inl ⟨(selects_stat_iff _).1 ‹_›, rfl⟩))))))
  · exact .inr (.inr (.inr (.inr (.inr (.inr (.inr ⟨by simp_all [opcodeMap], rfl⟩))))))

theorem tailWord_of_fits (r : BitVec 3) (t : Word) (h : tailFits r t = true) : tailWord r t = t := by
  have hr : ∀ r : BitVec 3, (BitVec.ofNat 64 (2 ^ (8 * r.toNat) - 1)).toNat = 2 ^ (8 * r.toNat) - 1 := by decide
  apply BitVec.eq_of_toNat_eq
  rw [tailWord, tailMask, BitVec.toNat_and, hr, Nat.and_two_pow_sub_one_eq_mod]
  exact Nat.mod_eq_of_lt (by simpa [tailFits] using h)

theorem tailFits_tailWord (r : BitVec 3) (w : Word) : tailFits r (tailWord r w) = true := by
  have hr : ∀ r : BitVec 3, (BitVec.ofNat 64 (2 ^ (8 * r.toNat) - 1)).toNat = 2 ^ (8 * r.toNat) - 1 := by decide
  rw [tailFits, tailWord, tailMask, BitVec.toNat_and, hr, Nat.and_two_pow_sub_one_eq_mod]
  exact decide_eq_true (Nat.mod_lt _ (by positivity))

/-- A decoded instruction has the header it was decoded from. -/
theorem hdr_of_decode {c : Command} {i : Instr} (h : decode c = .ok i) : i.hdr = c.hdr := by
  rcases decode_cases c with ⟨e, k⟩ | ⟨e, k⟩ | ⟨e, k⟩ | ⟨e, k⟩ | ⟨e, k⟩ | ⟨e, k⟩ | ⟨e, k⟩ | ⟨e, k⟩ <;>
    rw [k] at h <;> cases h <;> exact e.symm

end Sys2Proof
end

