-- ==== Sys2Proof/Laws/State.lean ====
section
/-! SUPPORT. One lemma per field per update of the state, so that no later proof unfolds a record update. A field that an
update leaves unspecified (a free value of Config) has no lemma here: nothing may be known of it. -/

namespace Sys2Proof.Machine

@[simp] theorem respond_v (c : RespCode) (d : Word) (s : State) :
    (respond c d s).v = s.v := rfl
@[simp] theorem respond_k0 (c : RespCode) (d : Word) (s : State) :
    (respond c d s).k0 = s.k0 := rfl
@[simp] theorem respond_k1 (c : RespCode) (d : Word) (s : State) :
    (respond c d s).k1 = s.k1 := rfl
@[simp] theorem respond_kv (c : RespCode) (d : Word) (s : State) :
    (respond c d s).kv = s.kv := rfl
@[simp] theorem respond_ph (c : RespCode) (d : Word) (s : State) :
    (respond c d s).ph = s.ph := rfl
@[simp] theorem respond_len8 (c : RespCode) (d : Word) (s : State) :
    (respond c d s).len8 = s.len8 := rfl
@[simp] theorem respond_err (c : RespCode) (d : Word) (s : State) :
    (respond c d s).err = s.err := rfl
@[simp] theorem respond_draws (c : RespCode) (d : Word) (s : State) :
    (respond c d s).draws = s.draws := rfl
@[simp] theorem respond_pending (c : RespCode) (d : Word) (s : State) :
    (respond c d s).pending = s.pending := rfl
@[simp] theorem respond_responses (c : RespCode) (d : Word) (s : State) :
    (respond c d s).responses = s.responses ++ [⟨c, d⟩] := rfl

@[simp] theorem setErr_v (e : Exception) (s : State) :
    (setErr e s).v = s.v := rfl
@[simp] theorem setErr_k0 (e : Exception) (s : State) :
    (setErr e s).k0 = s.k0 := rfl
@[simp] theorem setErr_k1 (e : Exception) (s : State) :
    (setErr e s).k1 = s.k1 := rfl
@[simp] theorem setErr_kv (e : Exception) (s : State) :
    (setErr e s).kv = s.kv := rfl
@[simp] theorem setErr_ph (e : Exception) (s : State) :
    (setErr e s).ph = s.ph := rfl
@[simp] theorem setErr_len8 (e : Exception) (s : State) :
    (setErr e s).len8 = s.len8 := rfl
@[simp] theorem setErr_err (e : Exception) (s : State) :
    (setErr e s).err = s.err ||| e.errBit := rfl
@[simp] theorem setErr_draws (e : Exception) (s : State) :
    (setErr e s).draws = s.draws := rfl
@[simp] theorem setErr_pending (e : Exception) (s : State) :
    (setErr e s).pending = s.pending := rfl
@[simp] theorem setErr_responses (e : Exception) (s : State) :
    (setErr e s).responses = s.responses := rfl

@[simp] theorem takeException_v (e : Exception) (h : Hdr) (s : State) :
    (takeException e h s).v = s.v := rfl
@[simp] theorem takeException_k0 (e : Exception) (h : Hdr) (s : State) :
    (takeException e h s).k0 = s.k0 := rfl
@[simp] theorem takeException_k1 (e : Exception) (h : Hdr) (s : State) :
    (takeException e h s).k1 = s.k1 := rfl
@[simp] theorem takeException_kv (e : Exception) (h : Hdr) (s : State) :
    (takeException e h s).kv = s.kv := rfl
@[simp] theorem takeException_ph (e : Exception) (h : Hdr) (s : State) :
    (takeException e h s).ph = s.ph := rfl
@[simp] theorem takeException_len8 (e : Exception) (h : Hdr) (s : State) :
    (takeException e h s).len8 = s.len8 := rfl
@[simp] theorem takeException_err (e : Exception) (h : Hdr) (s : State) :
    (takeException e h s).err = s.err ||| e.errBit := rfl
@[simp] theorem takeException_draws (e : Exception) (h : Hdr) (s : State) :
    (takeException e h s).draws = s.draws := rfl
@[simp] theorem takeException_pending (e : Exception) (h : Hdr) (s : State) :
    (takeException e h s).pending = s.pending := rfl
@[simp] theorem takeException_responses (e : Exception) (h : Hdr) (s : State) :
    (takeException e h s).responses = s.responses ++ [⟨.exception e, h.setWidth 64⟩] := rfl

@[simp] theorem loadKey_v (a b : Word) (s : State) :
    (loadKey a b s).v = s.v := rfl
@[simp] theorem loadKey_k0 (a b : Word) (s : State) :
    (loadKey a b s).k0 = a := rfl
@[simp] theorem loadKey_k1 (a b : Word) (s : State) :
    (loadKey a b s).k1 = b := rfl
@[simp] theorem loadKey_kv (a b : Word) (s : State) :
    (loadKey a b s).kv = true := rfl
@[simp] theorem loadKey_ph (a b : Word) (s : State) :
    (loadKey a b s).ph = s.ph := rfl
@[simp] theorem loadKey_len8 (a b : Word) (s : State) :
    (loadKey a b s).len8 = s.len8 := rfl
@[simp] theorem loadKey_err (a b : Word) (s : State) :
    (loadKey a b s).err = s.err := rfl
@[simp] theorem loadKey_draws (a b : Word) (s : State) :
    (loadKey a b s).draws = s.draws := rfl
@[simp] theorem loadKey_pending (a b : Word) (s : State) :
    (loadKey a b s).pending = s.pending := rfl
@[simp] theorem loadKey_responses (a b : Word) (s : State) :
    (loadKey a b s).responses = s.responses := rfl

@[simp] theorem writeArx_v (a : Arx) (l : Byte) (s : State) :
    (writeArx a l s).v = a := rfl
@[simp] theorem writeArx_k0 (a : Arx) (l : Byte) (s : State) :
    (writeArx a l s).k0 = s.k0 := rfl
@[simp] theorem writeArx_k1 (a : Arx) (l : Byte) (s : State) :
    (writeArx a l s).k1 = s.k1 := rfl
@[simp] theorem writeArx_kv (a : Arx) (l : Byte) (s : State) :
    (writeArx a l s).kv = s.kv := rfl
@[simp] theorem writeArx_ph (a : Arx) (l : Byte) (s : State) :
    (writeArx a l s).ph = s.ph := rfl
@[simp] theorem writeArx_len8 (a : Arx) (l : Byte) (s : State) :
    (writeArx a l s).len8 = l := rfl
@[simp] theorem writeArx_err (a : Arx) (l : Byte) (s : State) :
    (writeArx a l s).err = s.err := rfl
@[simp] theorem writeArx_draws (a : Arx) (l : Byte) (s : State) :
    (writeArx a l s).draws = s.draws := rfl
@[simp] theorem writeArx_pending (a : Arx) (l : Byte) (s : State) :
    (writeArx a l s).pending = s.pending := rfl
@[simp] theorem writeArx_responses (a : Arx) (l : Byte) (s : State) :
    (writeArx a l s).responses = s.responses := rfl

@[simp] theorem setPhase_v (p : Phase) (s : State) :
    (setPhase p s).v = s.v := rfl
@[simp] theorem setPhase_k0 (p : Phase) (s : State) :
    (setPhase p s).k0 = s.k0 := rfl
@[simp] theorem setPhase_k1 (p : Phase) (s : State) :
    (setPhase p s).k1 = s.k1 := rfl
@[simp] theorem setPhase_kv (p : Phase) (s : State) :
    (setPhase p s).kv = s.kv := rfl
@[simp] theorem setPhase_ph (p : Phase) (s : State) :
    (setPhase p s).ph = p := rfl
@[simp] theorem setPhase_len8 (p : Phase) (s : State) :
    (setPhase p s).len8 = s.len8 := rfl
@[simp] theorem setPhase_err (p : Phase) (s : State) :
    (setPhase p s).err = s.err := rfl
@[simp] theorem setPhase_draws (p : Phase) (s : State) :
    (setPhase p s).draws = s.draws := rfl
@[simp] theorem setPhase_pending (p : Phase) (s : State) :
    (setPhase p s).pending = s.pending := rfl
@[simp] theorem setPhase_responses (p : Phase) (s : State) :
    (setPhase p s).responses = s.responses := rfl

@[simp] theorem present_v (c : Command) (s : State) :
    (present c s).v = s.v := rfl
@[simp] theorem present_k0 (c : Command) (s : State) :
    (present c s).k0 = s.k0 := rfl
@[simp] theorem present_k1 (c : Command) (s : State) :
    (present c s).k1 = s.k1 := rfl
@[simp] theorem present_kv (c : Command) (s : State) :
    (present c s).kv = s.kv := rfl
@[simp] theorem present_ph (c : Command) (s : State) :
    (present c s).ph = s.ph := rfl
@[simp] theorem present_len8 (c : Command) (s : State) :
    (present c s).len8 = s.len8 := rfl
@[simp] theorem present_err (c : Command) (s : State) :
    (present c s).err = s.err := rfl
@[simp] theorem present_draws (c : Command) (s : State) :
    (present c s).draws = s.draws := rfl
@[simp] theorem present_pending (c : Command) (s : State) :
    (present c s).pending = .command c :: s.pending := rfl
@[simp] theorem present_responses (c : Command) (s : State) :
    (present c s).responses = s.responses := rfl

@[simp] theorem dropComputation_k0 (a : Arx) (s : State) :
    (dropComputation a s).k0 = s.k0 := rfl
@[simp] theorem dropComputation_k1 (a : Arx) (s : State) :
    (dropComputation a s).k1 = s.k1 := rfl
@[simp] theorem dropComputation_kv (a : Arx) (s : State) :
    (dropComputation a s).kv = s.kv := rfl
@[simp] theorem dropComputation_ph (a : Arx) (s : State) :
    (dropComputation a s).ph = s.ph := rfl
@[simp] theorem dropComputation_err (a : Arx) (s : State) :
    (dropComputation a s).err = s.err := rfl
@[simp] theorem dropComputation_draws (a : Arx) (s : State) :
    (dropComputation a s).draws = s.draws + 1 := rfl
@[simp] theorem dropComputation_pending (a : Arx) (s : State) :
    (dropComputation a s).pending = s.pending := rfl
@[simp] theorem dropComputation_responses (a : Arx) (s : State) :
    (dropComputation a s).responses = s.responses := rfl

@[simp] theorem takeReset_kv (s : State) :
    (takeReset s).kv = false := rfl
@[simp] theorem takeReset_ph (s : State) :
    (takeReset s).ph = .idle := rfl
@[simp] theorem takeReset_err (s : State) :
    (takeReset s).err = 0 := rfl
@[simp] theorem takeReset_draws (s : State) :
    (takeReset s).draws = s.draws + 1 := rfl
@[simp] theorem takeReset_pending (s : State) :
    (takeReset s).pending = s.pending := rfl
@[simp] theorem takeReset_responses (s : State) :
    (takeReset s).responses = s.responses := rfl

end Sys2Proof.Machine
end

