-- ==== Sys2Proof/Laws/Exec.lean ====
section
/-! SUPPORT. What a presented command and a step can do, said once: later proofs cite these case splits instead of unfolding
the meanings. -/

namespace Sys2Proof.Machine

/-- What an accepted command does: the condition under which it is accepted and the next state. -/
def Accepted : Instr → State → State → Prop
  | .keyw a b, s, t => s.ph = .idle ∧ t = respond .ok 0 (loadKey a b s)
  | .keyb n kb, s, t => s.ph = .idle ∧ n = 16 ∧ t = respond .ok 0 (loadKey (lowWord kb) (highWord kb) s)
  | .init, s, t => s.ph = .idle ∧ s.kv = true ∧
      t = respond .ok 0 (setPhase .absorb (writeArx (initArx s.k0 s.k1) 0 s))
  | .cmpw m, s, t => s.ph = .absorb ∧ t = respond .ok 0 (writeArx (compress s.v m) (s.len8 + 8) s)
  | .cmpl r w, s, t => s.ph = .absorb ∧ t = respond .ok 0 (setPhase .padded
      (writeArx (compress s.v (finalWord (s.len8 + r.setWidth 8) (tailWord r w))) (s.len8 + r.setWidth 8) s))
  | .fin, s, t => s.ph = .padded ∧ t = respond .ok (digestOf s.v) (setPhase .idle (dropComputation (finalArx s.v) s))
  | .stat, s, t => t = respond .ok ((statusView s).setWidth 64) s

/-- Everything a presented command can do: it always answers a next state; either the first exception that applies is taken,
or none applies and the command has its effect. -/
theorem execCommand_cases (c : Command) (s : State) : ∃ t, execCommand c s = .next t ∧
   ((∃ e, firstException c s.ph s.kv = some e ∧ t = takeException e c.hdr s) ∨
    (firstException c s.ph s.kv = none ∧ ∃ i, decode c = .ok i ∧ Accepted i s t)) := by
  unfold execCommand firstException
  cases hd : decode c with
  | error x => exact ⟨_, rfl, .inl ⟨_, rfl, rfl⟩⟩
  | ok i =>
    have hh := hdr_of_decode hd
    cases i with
    | keyw a b =>
      by_cases h : s.ph = .idle
      · simp [exec, execKeyw, precondition, h, Accepted]
      · simp [exec, execKeyw, precondition, h, Accepted, hh]
    | keyb n kb =>
      by_cases h : s.ph = .idle
      · by_cases hn : n = 16
        · simp [exec, execKeyb, precondition, h, Accepted, hn]
        · have hn' : ¬ n = 16#8 := hn
          simp [exec, execKeyb, precondition, h, Accepted, hn', hh]
      · simp [exec, execKeyb, precondition, h, Accepted, hh]
    | init =>
      by_cases h : s.ph = .idle ∧ s.kv = true
      · simp [exec, execInit, precondition, h, Accepted]
      · simp only [exec, execInit, if_neg h]
        refine ⟨_, rfl, .inl ⟨.sequenceError, ?_, by rw [hh]⟩⟩
        have : precondition .init s.ph s.kv = false := by
          simp only [precondition]; cases hp : s.ph <;> cases hk : s.kv <;> simp_all
        rw [if_pos this]
    | cmpw m =>
      by_cases h : s.ph = .absorb
      · simp [exec, execCmpw, precondition, h, Accepted]
      · simp [exec, execCmpw, precondition, h, Accepted, hh]
    | cmpl r w =>
      by_cases h : s.ph = .absorb
      · simp [exec, execCmpl, precondition, h, Accepted]
      · simp [exec, execCmpl, precondition, h, Accepted, hh]
    | fin =>
      by_cases h : s.ph = .padded
      · simp [exec, execFin, precondition, h, Accepted]
      · simp [exec, execFin, precondition, h, Accepted, hh]
    | stat => simp [exec, execStat, precondition, Accepted]

/-- What every accepted command does to the responses, ERR and the host's list. -/
theorem accepted_responses {i s t} (h : Accepted i s t) :
    ∃ d, t.responses = s.responses ++ [⟨.ok, d⟩] ∧ t.err = s.err ∧ t.pending = s.pending ∧
      (i = .fin → d = digestOf s.v) ∧ (i = .stat → d = (statusView s).setWidth 64) ∧ (i ≠ .fin → i ≠ .stat → d = 0) := by
  cases i <;> simp only [Accepted] at h
  · obtain ⟨_, rfl⟩ := h; exact ⟨_, rfl, rfl, rfl, by simp, by simp, by simp⟩
  · obtain ⟨_, _, rfl⟩ := h; exact ⟨_, rfl, rfl, rfl, by simp, by simp, by simp⟩
  · obtain ⟨_, _, rfl⟩ := h; exact ⟨_, rfl, rfl, rfl, by simp, by simp, by simp⟩
  · obtain ⟨_, rfl⟩ := h; exact ⟨_, rfl, rfl, rfl, by simp, by simp, by simp⟩
  · obtain ⟨_, rfl⟩ := h; exact ⟨_, rfl, rfl, rfl, by simp, by simp, by simp⟩
  · obtain ⟨_, rfl⟩ := h; exact ⟨_, rfl, rfl, rfl, by simp, by simp, by simp⟩
  · subst h; exact ⟨_, rfl, rfl, rfl, by simp, by simp, by simp⟩

/-- Everything a step can do: nothing when nothing is presented, the reset event, or the command presented. -/
theorem step_cases (s : State) :
    (s.pending = [] ∧ step s = .next s) ∨
    (∃ rest, s.pending = .reset :: rest ∧ step s = .next (takeReset { s with pending := rest })) ∨
    (∃ c rest, s.pending = .command c :: rest ∧ step s = execCommand c { s with pending := rest }) := by
  unfold step fetch
  cases h : s.pending with
  | nil => exact .inl ⟨rfl, rfl⟩
  | cons e rest =>
    cases e with
    | reset => exact .inr (.inl ⟨rest, rfl, rfl⟩)
    | command c => exact .inr (.inr ⟨c, rest, rfl, rfl⟩)

end Sys2Proof.Machine
end

