-- ==== Sys2Proof/Laws/PerInstr.lean ====
section
/-! SUPPORT. Statements made per instruction, about the instruction as syntax. -/

namespace Sys2Proof.Laws.HeaderSelectsRow

/-- The header of a command selects the command's own row of the opcode map (30_encoding.md R74, R81). -/
def Statement (i : Instr) : Prop := i.row.selects i.hdr = true

theorem keyw (k0 k1 : Word) : Statement (.keyw k0 k1) := by
  have h : rowKeyw.selects 0x0100 = true := by decide
  exact h

theorem keyb (n : Byte) (kb : Data) : Statement (.keyb n kb) := by
  have h : ∀ n : Byte, rowKeyb.selects (0x0200 + n.setWidth 16) = true := by decide
  exact h n

theorem init : Statement .init := rfl

theorem cmpw (m : Word) : Statement (.cmpw m) := by
  have h : rowCmpw.selects 0x0400 = true := by decide
  exact h

theorem cmpl (r : BitVec 3) (t : Word) : Statement (.cmpl r t) := by
  have h : ∀ r : BitVec 3, rowCmpl.selects (0x0500 + r.setWidth 16) = true := by decide
  exact h r

theorem fin : Statement .fin := rfl

theorem stat : Statement .stat := rfl

end Sys2Proof.Laws.HeaderSelectsRow
end

