-- ==== Sys2Proof/Tests/Slice0.lean ====
section
/-! SUPPORT. Tests of the model, and a witness for the hypotheses of every statement. Every expected value is copied from
spec/: 95_test_vectors.md unless another file is named. -/

namespace Sys2Proof.Tests

open Sys2Proof.Machine

/-! ### A small state -/

/-- The standard test key KSTD (95_test_vectors.md, notation). -/
def kstd0 : Word := 0x0706050403020100
def kstd1 : Word := 0x0f0e0d0c0b0a0908

/-- The ARX state after INIT under KSTD (95_test_vectors.md 2.3). -/
def afterInit : Arx := ⟨0x7469686173716475, 0x6b617f6d656e6665, 0x6b7f62616d677361, 0x7b6b696e727e6c7b⟩

/-- The ARX state after `CMPL 0` of the empty message under KSTD (95_test_vectors.md P1). -/
def afterEmpty : Arx := ⟨0x75126fd44af190b6, 0x084235164f06142b, 0x37b04f9f8026831d, 0x1b4678cde8253231⟩

/-- A state with KSTD in the key registers. -/
def mk (ph : Phase) (kv : Bool) (err : BitVec 3) (len8 : Byte) (v : Arx) : State where
  v := v
  k0 := kstd0
  k1 := kstd1
  kv := kv
  ph := ph
  len8 := len8
  err := err
  draws := 1
  pending := []
  responses := []

/-- IDLE without a key. -/
def bare : State := mk .idle false 0 0 ⟨0, 0, 0, 0⟩
/-- IDLE with KSTD. -/
def keyed : State := mk .idle true 0 0 ⟨0, 0, 0, 0⟩
/-- ABSORB, right after INIT under KSTD. -/
def absorbing : State := mk .absorb true 0 0 afterInit
/-- PADDED, the empty message under KSTD. -/
def padded : State := mk .padded true 0 0 afterEmpty

/-- The next state of an outcome. -/
def next? (o : Host.Outcome State Fault Refusal) : Option State :=
  match o with
  | .next t    => some t
  | .fault _   => none
  | .refused _ => none

/-- What an outcome answers: the latest response, PH and ERR. -/
def answer (o : Host.Outcome State Fault Refusal) : Option (Option Response × Phase × BitVec 3) :=
  (next? o).map fun t => (lastResponse t, t.ph, t.err)

/-- A state about to be given one command. -/
def presenting (c : Command) (s : State) : State := { s with pending := [.command c] }

/-- OK with that data. -/
def okWith (d : Word) : Option Response := some ⟨.ok, d⟩
/-- Refused with that exception and that header. -/
def refusedWith (e : Exception) (h : Hdr) : Option Response := some ⟨.exception e, h.setWidth 64⟩

/-! ### Well-formed and ill-formed commands -/

theorem test_keyb_lanes_looked_at_only_for_sixteen : Instr.wellFormed (.keyb 15 1) = false := by decide
theorem test_keyb_sixteen_is_well_formed : Instr.wellFormed (.keyb 16 (BitVec.allOnes 128)) = true := by decide
theorem test_keyb_255_is_well_formed : Instr.wellFormed (.keyb 255 0) = true := by decide
theorem test_cmpl_tail_too_long : Instr.wellFormed (.cmpl 1 0x100) = false := by decide
theorem test_cmpl_no_tail : Instr.wellFormed (.cmpl 0 1) = false := by decide
theorem test_cmpl_full_tail : Instr.wellFormed (.cmpl 7 0x00ffffffffffffff) = true := by decide

/-! ### Decoding: words written bit by bit from 30_encoding.md R73, R74 -/

theorem test_decode_keyw : decode ⟨0b0000000100000000, 0x0f0e0d0c0b0a09080706050403020100⟩ =
    .ok (.keyw 0x0706050403020100 0x0f0e0d0c0b0a0908) := by decide
theorem test_decode_keyb : decode ⟨0b0000001000010000, 0xff000000000000000000000000000080⟩ =
    .ok (.keyb 16 0xff000000000000000000000000000080) := by decide
theorem test_decode_keyb_length : decode ⟨0b0000001011111111, 0x0f0e0d0c0b0a09080706050403020100⟩ =
    .ok (.keyb 255 0) := by decide
theorem test_decode_init : decode ⟨0b0000001100000000, 0xffffffffffffffffffffffffffffffff⟩ = .ok .init := by decide
theorem test_decode_cmpw : decode ⟨0b0000010000000000, 0xdeadbeefdeadbeef0706050403020100⟩ =
    .ok (.cmpw 0x0706050403020100) := by decide
theorem test_decode_cmpl : decode ⟨0b0000010100000001, 0xffffffffffffffffffffffffffffff61⟩ =
    .ok (.cmpl 1 0x61) := by decide
theorem test_decode_cmpl_seven : decode ⟨0b0000010100000111, 0xffffffffffffffff⟩ =
    .ok (.cmpl 7 0x00ffffffffffffff) := by decide
theorem test_decode_fin : decode ⟨0b0000011000000000, 0⟩ = .ok .fin := by decide
theorem test_decode_stat : decode ⟨0b0000011100000000, 0⟩ = .ok .stat := by decide

/-- The illegal headers of 95_test_vectors.md 2.9. -/
theorem test_decode_illegal :
    ([0x0101, 0x0301, 0x0380, 0x0408, 0x0610, 0x07ff].all fun h => decode ⟨h, 0⟩ == .error .nonzeroArgument) ∧
    ([0x0508, 0x0587].all fun h => decode ⟨h, 0⟩ == .error .nonzeroTailBits) ∧
    ([0x0000, 0x0800, 0x1000, 0xff00, 0xffff].all fun h => decode ⟨h, 0⟩ == .error .reservedOpcode) := by decide

/-- The assembler lines of 95_test_vectors.md 2.5 and P6. -/
theorem test_encode_lines :
    asmKeyb 16 [0x80, 0, 0, 0, 0, 0, 0, 0, 0, 0, 0, 0, 0, 0, 0, 0xff] = ⟨0x0210, 0xff000000000000000000000000000080⟩ ∧
    encode (.keyw kstd0 kstd1) = ⟨0x0100, 0x0f0e0d0c0b0a09080706050403020100⟩ ∧
    asmCmpl 7 [0x53, 0x69, 0x70, 0x48, 0x61, 0x73, 0x68] = ⟨0x0507, 0x00000000000000000068736148706953⟩ := by decide

/-! ### Bytes, words, the ARX datapath -/

/-- 95_test_vectors.md 1.3: bytes are unsigned. -/
theorem test_le64_unsigned : le64 [0xc8, 0xf6, 0xef, 0xcb, 0xad, 0x54, 0x81, 0x43] = 0x438154adcbeff6c8 := by decide

/-- 95_test_vectors.md 2.4 and 2.8. -/
theorem test_padWord : padWord [] 0 = 0 ∧ padWord [] 0xf8 = 0xf800000000000000 ∧
    padWord [0xff, 0xfe, 0xfd] 3 = 0x0300000000fdfeff ∧
    padWord [0xcb, 0xd2, 0xd9, 0xe0, 0xe7, 0xee, 0xf5] 0xff = 0xfff5eee7e0d9d2cb := by decide

/-- 95_test_vectors.md 2.1. -/
theorem test_add64 : add64 0xffffffffffffffff 1 = 0 ∧ add64 0x736f6d6570736575 0x646f72616e646f6d = 0xd7dedfc6ded7d4e2 := by
  decide

/-- 95_test_vectors.md 2.1, row 5. -/
theorem test_rotl64 : ([13, 16, 17, 21, 32].map (rotl64 0x0123456789abcdef)) =
    [0x68acf13579bde024, 0x456789abcdef0123, 0x8acf13579bde0246, 0xacf13579bde02468, 0x89abcdef01234567] := by decide

/-- 95_test_vectors.md 2.2, vectors 2, 4, 6. -/
theorem test_sipRound :
    sipRound ⟨0xffffffffffffffff, 0xffffffffffffffff, 0xffffffffffffffff, 0xffffffffffffffff⟩ =
      ⟨0xffffffff00000000, 0xfffffffffffdffff, 0xffffffffffffffff, 0xffffffff00200000⟩ ∧
    sipRound ⟨0, 1, 0, 0⟩ = ⟨0x0000000100000000, 0x0000000040022001, 0x0000200100000000, 0x0000000100000000⟩ ∧
    sipRound ⟨0, 0, 0, 1⟩ = ⟨0x0000000000010001, 0x0000000000000001, 0x0000000100000000, 0x0000002000210001⟩ := by decide

/-- 95_test_vectors.md 2.7. -/
theorem test_digestOf : digestOf ⟨0, 0, 0, 0⟩ = 0x3c4ceb5cc070daa0 ∧ digestOf ⟨0, 0, 0xff, 0⟩ = 0 ∧
    digestOf afterEmpty = 0x726fdb47dd0e0e31 := by decide +kernel

/-- The document's vectors 1 to 6 (95_test_vectors.md 1.1). -/
theorem test_sipHash24_document :
    sipHash24 kstd0 kstd1 [0, 1, 2, 3, 4, 5, 6, 7, 8, 9, 10, 11, 12, 13, 14] = 0xa129ca6149be45e5 ∧
    sipHash24 kstd0 kstd1 [] = 0x726fdb47dd0e0e31 ∧
    sipHash24 kstd0 kstd1 [0x61] = 0x2ba3e8e9a71148ca ∧
    sipHash24 kstd0 kstd1 [0x61, 0x62, 0x63, 0x64, 0x65, 0x66] = 0x2a6e77e733c7c05d ∧
    sipHash24 kstd0 kstd1 [0x53, 0x69, 0x70, 0x48, 0x61, 0x73, 0x68] = 0x8325093242a96f60 ∧
    sipHash24 kstd0 kstd1 [0x31, 0x32, 0x33, 0x34, 0x35, 0x36, 0x37, 0x38] = 0x02130609caea37eb := by decide +kernel

/-- The byte-sign pair under the zero key (95_test_vectors.md 1.3). -/
theorem test_sipHash24_byte_sign :
    sipHash24 0 0 [0x6d, 0xd3, 0x9d, 0xab, 0xb8, 0x25, 0xcd, 0x78, 0xc8, 0xf6, 0xef, 0xcb, 0xad, 0x54, 0x81, 0x43] =
      0x9032a18dfd0c2f36 ∧
    sipHash24 0 0 [0x6d, 0xd3, 0x9d, 0xab, 0xb8, 0x25, 0xcd, 0x78, 0xc8, 0x50, 0x6f, 0x43, 0xc5, 0x5c, 0x64, 0x02] =
      0x2e062a536a4173b9 := by decide +kernel

/-! ### The commands, one step each -/

/-- 95_test_vectors.md 2.5, row 1, from reset: the words are not exchanged. -/
theorem test_keyw : (next? (exec (.keyw kstd0 kstd1) State.reset)).map (fun t => (t.k0, t.k1, t.kv)) =
    some (kstd0, kstd1, true) := by rfl
/-- 95_test_vectors.md 2.10, row 12. -/
theorem test_keyw_refused : answer (exec (.keyw 0 0) absorbing) =
    some (refusedWith .sequenceError 0x0100, .absorb, 0b010) := by decide
/-- 95_test_vectors.md 2.5, row 3: bytes 80 and ff are unsigned. -/
theorem test_keyb : (next? (exec (.keyb 16 0xff000000000000000000000000000080) State.reset)).map
    (fun t => (t.k0, t.k1, t.kv)) = some (0x80, 0xff00000000000000, true) := by rfl
/-- 95_test_vectors.md 2.10, rows 14 and 31: SequenceError comes first; ERR is sticky. -/
theorem test_keyb_refused :
    answer (exec (.keyb 15 0) absorbing) = some (refusedWith .sequenceError 0x020f, .absorb, 0b010) ∧
    answer (exec (.keyb 17 0) { keyed with err := 0b010 }) =
      some (refusedWith .invalidKeyLength 0x0211, .idle, 0b011) := by decide
/-- 95_test_vectors.md 2.3, row 2. -/
theorem test_init : (next? (exec .init keyed)).map (fun t => (t.v, t.len8, t.ph)) =
    some (afterInit, 0, .absorb) := by decide
/-- 95_test_vectors.md 2.10, row 1, from reset. -/
theorem test_init_refused : answer (exec .init State.reset) =
    some (refusedWith .sequenceError 0x0300, .idle, 0b010) := by rfl
/-- 42_init_compress.md R132, the example. -/
theorem test_cmpw : (next? (exec (.cmpw 0x0706050403020100) absorbing)).map (fun t => (t.v, t.len8, t.ph)) =
    some (⟨0x4a017198de0a59e0, 0x0d52f6f62a4f59a4, 0x634cb3577b01fd3d, 0xa5224d6f55c7d9c8⟩, 8, .absorb) := by decide +kernel
/-- 95_test_vectors.md 2.3, Compress vector 5: LEN8 wraps. -/
theorem test_cmpw_len8_wraps : (next? (exec (.cmpw 0) (mk .absorb true 0 0xf8 ⟨0, 0, 0, 0⟩))).map
    (fun t => (t.v, t.len8)) = some (⟨0, 0, 0, 0⟩, 0) := by decide
/-- 95_test_vectors.md P7: garbage on the unused lanes. -/
theorem test_cmpl : (next? (exec (.cmpl 1 0xffffffffffffff61) absorbing)).map (fun t => (t.v, t.len8, t.ph)) =
    some (⟨0x8d93a7cec1dd23a8, 0xe1420fbdf4104c76, 0x4c9e0fc2692686dc, 0xe2b0d342c4eaa547⟩, 1, .padded) := by
  decide +kernel
/-- 95_test_vectors.md 2.4, row 7. -/
theorem test_cmpl_seven : (next? (exec (.cmpl 7 0x00f9fafbfcfdfeff) absorbing)).map (fun t => (t.v, t.len8)) =
    some (⟨0x2cbf575309d5e745, 0xf6aae1d4350f0571, 0xb88599e99914113a, 0xfa8c9525c88c36ad⟩, 7) := by decide +kernel
/-- 95_test_vectors.md 2.10, row 25: nothing is said of V0..V3 and LEN8. -/
theorem test_fin : answer (exec .fin padded) = some (okWith 0x726fdb47dd0e0e31, .idle, 0) := by decide +kernel
/-- 95_test_vectors.md 2.10, row 30. -/
theorem test_fin_refused : answer (exec .fin { absorbing with err := 0b001 }) =
    some (refusedWith .sequenceError 0x0600, .absorb, 0b011) := by decide
/-- 95_test_vectors.md 2.11. -/
theorem test_stat : answer (exec .stat { absorbing with err := 0b111 }) = some (okWith 0x75, .absorb, 0b111) := by decide
/-- 95_test_vectors.md 2.11, from reset. -/
theorem test_stat_reset : answer (exec .stat State.reset) = some (okWith 0, .idle, 0) := by rfl
/-- 95_test_vectors.md 2.10, rows 27 and 28: an illegal header in any phase. -/
theorem test_illegal :
    answer (execCommand ⟨0x0508, 0⟩ absorbing) = some (refusedWith .illegalCommand 0x0508, .absorb, 0b100) ∧
    answer (execCommand ⟨0x0000, 0⟩ { padded with err := 0b010 }) =
      some (refusedWith .illegalCommand 0, .padded, 0b110) := by decide

/-! ### The step -/

theorem test_step_runs_the_command : step (State.reset.withFetchWord 16 0x0100) = exec (.keyw 0 0) State.reset := by rfl
theorem test_step_illegal : answer (step (absorbing.withFetchWord 16 0x0301)) =
    some (refusedWith .illegalCommand 0x0301, .absorb, 0b100) := by decide
theorem test_step_idle : step State.reset = .next State.reset := by rfl
/-- 70_reset_and_hazards.md R200: no response, PH = IDLE, KV = 0, ERR = 000. -/
theorem test_step_reset : (next? (step { padded with err := 0b111, pending := [.reset] })).map
    (fun t => (t.ph, t.kv, t.err, t.responses, t.pending)) = some (.idle, false, 0, [], []) := by decide
theorem test_tableWord : decodeTableWord 8 0x0700 = none ∧ decodeTableWord 16 0x0507 = some (.cmpl 7 0) := by decide

/-! ### The hypotheses of the statements can be met

One theorem per statement with hypotheses, named after it: concrete arguments that meet them all, for each clause, at the
ends of the clause's range. -/

theorem test_hyp_DecodeOfEncodeIsTheInstruction :
    [Instr.keyw 0 0, .keyb 0 0, .keyb 15 0, .keyb 16 (BitVec.allOnes 128), .keyb 17 0, .keyb 255 0, .init,
      .cmpw 0xffffffffffffffff, .cmpl 0 0, .cmpl 1 0xff, .cmpl 7 0x00ffffffffffffff, .fin, .stat].all
      Instr.wellFormed = true := by decide

theorem test_hyp_EncodeOfDecodeKeepsUsedBits :
    decode ⟨0x0501, 0xffffffffffffffffffffffffffffff61⟩ = .ok (.cmpl 1 0x61) ∧
    decode ⟨0x020f, 1⟩ = .ok (.keyb 15 0) := by decide

theorem test_hyp_IllegalHeadersAreRefused :
    decode ⟨0x0000, 0⟩ = .error .reservedOpcode ∧ decode ⟨0x0800, 0⟩ = .error .reservedOpcode ∧
    decode ⟨0xffff, 0⟩ = .error .reservedOpcode ∧ decode ⟨0x0101, 0⟩ = .error .nonzeroArgument ∧
    decode ⟨0x07ff, 0⟩ = .error .nonzeroArgument ∧ decode ⟨0x0508, 0⟩ = .error .nonzeroTailBits ∧
    decode ⟨0x05ff, 0⟩ = .error .nonzeroTailBits := by decide

theorem test_hyp_OpcodeRowsAreDisjoint :
    (rowKeyb ∈ opcodeMap ∧ rowKeyb.selects 0x02ff = true ∧ rowCmpl ∈ opcodeMap ∧ rowCmpl.selects 0x0507 = true) ∧
    decode ⟨0x0507, 0⟩ = .ok (.cmpl 7 0) ∧
    (∀ row ∈ opcodeMap, row.selects (Command.mk 0x0508 0).hdr = false) ∧
    (∀ row ∈ opcodeMap, row.selects (Command.mk 0x0800 0).hdr = false) := by decide

theorem test_hyp_AssemblerLinesEncode :
    (List.replicate 16 (0xff : Byte)).length = 16 ∧
    ((0 : Byte) ≠ 16 ∧ ([] : List Byte).length = min (0 : Byte).toNat 16) ∧
    ((15 : Byte) ≠ 16 ∧ (List.replicate 15 (1 : Byte)).length = min (15 : Byte).toNat 16) ∧
    ((255 : Byte) ≠ 16 ∧ (List.replicate 16 (1 : Byte)).length = min (255 : Byte).toNat 16) ∧
    (List.replicate 8 (0xff : Byte)).length = 8 ∧
    ([] : List Byte).length = (0 : BitVec 3).toNat ∧
    (List.replicate 7 (0xff : Byte)).length = (7 : BitVec 3).toNat := by decide

theorem test_hyp_UnusedDataBitsAreIgnored :
    ((0xffff61 : Data) ≠ 0x61 ∧ (0xffff61 : Data) &&& usedDataMask 0x0501 = 0x61 &&& usedDataMask 0x0501) ∧
    ((1 : Data) ≠ 0 ∧ (1 : Data) &&& usedDataMask 0x0500 = 0 &&& usedDataMask 0x0500) ∧
    ((1 : Data) ≠ 0 ∧ (1 : Data) &&& usedDataMask 0x02ff = 0 &&& usedDataMask 0x02ff) ∧
    (0 : Byte) ≠ 16 ∧ (17 : Byte) ≠ 16 := by decide

theorem test_hyp_Le64IsLittleEndian :
    (0 < [0x80, 1, 2, 3, 4, 5, 6, (0xff : Byte)].length ∧ 7 < [0x80, 1, 2, 3, 4, 5, 6, (0xff : Byte)].length ∧
      [0x80, 1, 2, 3, 4, 5, 6, (0xff : Byte)].length = 8) ∧
    (15 < (List.replicate 16 (0xff : Byte)).length ∧ (List.replicate 16 (0xff : Byte)).length ≤ 16) ∧
    (0 < [(0x80 : Byte)].length ∧ [(0x80 : Byte)].length ≤ 16) := by decide

theorem test_hyp_PadWordLayout :
    (([] : List Byte).length ≤ 7 ∧ ([] : List Byte).length ≤ 0 ∧ ([] : List Byte).length ≤ 6 ∧ 6 ≤ 6) ∧
    ((List.replicate 7 (0xff : Byte)).length ≤ 7 ∧ 6 < (List.replicate 7 (0xff : Byte)).length) ∧
    ((List.replicate 6 (0xff : Byte)).length ≤ 7 ∧ 5 < (List.replicate 6 (0xff : Byte)).length ∧
      (List.replicate 6 (0xff : Byte)).length ≤ 6 ∧ 6 ≤ 6) := by decide

theorem test_hyp_RotationIsCircular : (0 < 1 ∧ 1 < 64) ∧ (0 < 63 ∧ 63 < 64) ∧ 0 < 64 := by decide

/-- 95_test_vectors.md P1, `CMPL round 2`. -/
theorem test_hyp_CompressIsTwoRounds :
    sipRound (sipRound ⟨0x7469686173716475, 0x6b617f6d656e6665, 0x6b7f62616d677361, 0x7b6b696e727e6c7b ^^^ 0⟩) =
      ⟨0x75126fd44af190b6, 0x084235164f06142b, 0x37b04f9f8026831d, 0x1b4678cde8253231⟩ := by decide

theorem test_hyp_KeywLoadsWordsInIdle :
    (opField 0x0101 = 0x01 ∧ argField 0x0101 ≠ 0) ∧ (opField 0x01ff = 0x01 ∧ argField 0x01ff ≠ 0) ∧
    absorbing.ph ≠ .idle ∧ padded.ph ≠ .idle ∧ bare.ph = .idle ∧ keyed.ph = .idle := by decide

theorem test_hyp_KeybLoadsSixteenBytesInIdle :
    absorbing.ph ≠ .idle ∧ padded.ph ≠ .idle ∧
    (bare.ph = .idle ∧ (0 : Byte) ≠ 16) ∧ (keyed.ph = .idle ∧ (15 : Byte) ≠ 16) ∧
    (keyed.ph = .idle ∧ (17 : Byte) ≠ 16) ∧ (keyed.ph = .idle ∧ (255 : Byte) ≠ 16) ∧
    (bare.ph = .idle ∧ (16 : Byte) = 16) := by decide

theorem test_hyp_InitStartsFromTheKey :
    (opField 0x0301 = 0x03 ∧ argField 0x0301 ≠ 0) ∧ (opField 0x03ff = 0x03 ∧ argField 0x03ff ≠ 0) ∧
    (bare.ph ≠ .idle ∨ bare.kv ≠ true) ∧ (absorbing.ph ≠ .idle ∨ absorbing.kv ≠ true) ∧
    (padded.ph ≠ .idle ∨ padded.kv ≠ true) ∧ (keyed.ph = .idle ∧ keyed.kv = true) := by decide

theorem test_hyp_CmpwCompressesInAbsorb :
    (opField 0x0408 = 0x04 ∧ argField 0x0408 ≠ 0) ∧ (opField 0x04ff = 0x04 ∧ argField 0x04ff ≠ 0) ∧
    keyed.ph ≠ .absorb ∧ padded.ph ≠ .absorb ∧
    absorbing.ph = .absorb ∧ (mk .absorb true 0 0xf8 afterInit).ph = .absorb := by decide

theorem test_hyp_CmplCompressesTheFinalWord :
    (opField 0x0508 = 0x05 ∧ (0x0508 : Hdr).extractLsb' 3 5 ≠ (0 : BitVec 5)) ∧
    (opField 0x0580 = 0x05 ∧ (0x0580 : Hdr).extractLsb' 3 5 ≠ (0 : BitVec 5)) ∧
    keyed.ph ≠ .absorb ∧ padded.ph ≠ .absorb ∧
    (absorbing.ph = .absorb ∧ (0 : Byte) = BitVec.ofNat 8 ((absorbing.len8.toNat + (0 : BitVec 3).toNat) % 256)) ∧
    ((mk .absorb true 0 0xf8 afterInit).ph = .absorb ∧
      (0xff : Byte) = BitVec.ofNat 8 (((mk .absorb true 0 0xf8 afterInit).len8.toNat + (7 : BitVec 3).toNat) % 256)) := by
  decide

/-- 95_test_vectors.md P1, `FIN round 4`. -/
theorem test_hyp_FinAnswersTheDigest :
    (opField 0x0610 = 0x06 ∧ argField 0x0610 ≠ 0) ∧ (opField 0x06ff = 0x06 ∧ argField 0x06ff ≠ 0) ∧
    keyed.ph ≠ .padded ∧ absorbing.ph ≠ .padded ∧
    (padded.ph = .padded ∧
      (⟨0xe738d0dfdc9b2453, 0x214ac5771e0c4cd2, 0xe2ea71f68a57ef6d, 0x56f7bf1995ce89dd⟩ : Arx) =
        sipRound (sipRound (sipRound (sipRound
          ⟨padded.v.v0, padded.v.v1, padded.v.v2 ^^^ 0xff, padded.v.v3⟩)))) := by decide +kernel

theorem test_hyp_StatAnswersTheStatus :
    (opField 0x0701 = 0x07 ∧ argField 0x0701 ≠ 0) ∧ (opField 0x07ff = 0x07 ∧ argField 0x07ff ≠ 0) := by decide

theorem test_hyp_StatusNeverShowsAnOpenPhaseWithoutKey :
    ControlInv absorbing ∧ ControlInv padded ∧ (ControlInv bare ∧ (statusView bare).getLsbD 2 = false) := by
  unfold ControlInv; decide

theorem test_hyp_KeybOfSixteenIsKeyw : bare.ph = .idle ∧ keyed.ph = .idle := by decide

theorem test_hyp_OnlyAcceptedKeyLoadsWriteTheKey :
    (∃ t, execCommand ⟨0x0210, 1⟩ absorbing = .next t ∧ acceptedKey ⟨0x0210, 1⟩ absorbing = none) ∧
    (∃ t, execCommand ⟨0x020f, 1⟩ keyed = .next t ∧ acceptedKey ⟨0x020f, 1⟩ keyed = none) ∧
    (∃ t, execCommand ⟨0x0100, 1⟩ bare = .next t ∧ acceptedKey ⟨0x0100, 1⟩ bare = some (1, 0)) ∧
    (∃ t, execCommand ⟨0x0210, 1⟩ bare = .next t ∧ acceptedKey ⟨0x0210, 1⟩ bare = some (1, 0)) :=
  ⟨⟨_, rfl, by decide⟩, ⟨_, rfl, by decide⟩, ⟨_, rfl, by decide⟩, ⟨_, rfl, by decide⟩⟩

theorem test_hyp_SequenceTable :
    (∃ p, tableEntry .init keyed.ph keyed.kv = .ok p) ∧ (∃ e, tableEntry .init bare.ph bare.kv = .error e) ∧
    (∃ x, decode ⟨0x0508, 0⟩ = .error x) ∧
    (∃ t, bare.ph = .idle ∧ (exec (.keyw 0 0) bare = .next t ∨ exec (.keyb 16 0) bare = .next t)) ∧
    (∃ t, (absorbing.ph ≠ .idle → absorbing.kv = true) ∧
      step (presenting ⟨0x0700, 0⟩ absorbing) = .next t ∧ t.ph ≠ .idle) :=
  ⟨⟨_, rfl⟩, ⟨_, rfl⟩, ⟨_, rfl⟩, ⟨_, rfl, .inl rfl⟩, ⟨_, by decide, rfl, by decide⟩⟩

theorem test_hyp_FirstExceptionIsReported :
    firstException ⟨0x0508, 0⟩ .absorb true = some .illegalCommand ∧
    firstException ⟨0x020f, 0⟩ .absorb true = some .sequenceError ∧
    firstException ⟨0x020f, 0⟩ .idle true = some .invalidKeyLength ∧
    firstException ⟨0x0210, 0⟩ .idle false = none ∧ firstException ⟨0x0700, 0⟩ .padded true = none := by decide

theorem test_hyp_ExceptionChangesOnlyErr :
    (∃ t, execCommand ⟨0x0508, 0⟩ absorbing = .next t ∧
      t.responses = absorbing.responses ++ [⟨.exception .illegalCommand, 0x0508⟩]) ∧
    (∃ t, execCommand ⟨0x0600, 0⟩ absorbing = .next t ∧
      t.responses = absorbing.responses ++ [⟨.exception .sequenceError, 0x0600⟩]) :=
  ⟨⟨_, rfl, by decide⟩, ⟨_, rfl, by decide⟩⟩

theorem test_hyp_InvalidKeyLengthOnlyFromKeyb :
    (opField 0x020f = 0x02 ∧ argField 0x020f ≠ 16 ∧ keyed.ph = .idle) ∧
    (∃ d, Answers ⟨0x02ff, 0⟩ keyed ⟨.exception .invalidKeyLength, d⟩) ∧
    (∃ t, execCommand ⟨0x020f, 0⟩ keyed = .next t ∧
      t.responses = keyed.responses ++ [⟨.exception .invalidKeyLength, 0x020f⟩]) :=
  ⟨by decide, ⟨0x02ff, _, rfl, by decide⟩, ⟨_, rfl, by decide⟩⟩

theorem test_hyp_CodeDependsOnHeaderPhaseAndKeyValidOnly :
    absorbing.ph = (mk .absorb true 0b111 8 ⟨0, 0, 0, 0⟩).ph ∧ absorbing.kv = (mk .absorb true 0b111 8 ⟨0, 0, 0, 0⟩).kv ∧
    Answers ⟨0x0300, 0⟩ absorbing ⟨.exception .sequenceError, 0x0300⟩ ∧
    Answers ⟨0x0300, 1⟩ (mk .absorb true 0b111 8 ⟨0, 0, 0, 0⟩) ⟨.exception .sequenceError, 0x0300⟩ :=
  ⟨by decide, by decide, ⟨_, rfl, by decide⟩, ⟨_, rfl, by decide⟩⟩

theorem test_hyp_ErrIsStickyAndInert :
    (∃ t, execCommand ⟨0x0700, 0⟩ padded = .next t ∧ decode ⟨0x0700, 0⟩ = .ok .stat) ∧
    (∃ t, execCommand ⟨0x0600, 0⟩ absorbing = .next t ∧ decode ⟨0x0600, 0⟩ ≠ .ok .stat) :=
  ⟨⟨_, rfl, by decide⟩, ⟨_, rfl, by decide⟩⟩

theorem test_hyp_EveryCommandIsAnsweredOnce :
    answer (execCommand ⟨0x0300, 0⟩ keyed) = some (okWith 0, .absorb, 0) ∧
    answer (execCommand ⟨0x0600, 0⟩ padded) = some (okWith 0x726fdb47dd0e0e31, .idle, 0) ∧
    answer (execCommand ⟨0x0700, 0⟩ keyed) = some (okWith 4, .idle, 0) ∧
    answer (execCommand ⟨0x0600, 0⟩ keyed) = some (refusedWith .sequenceError 0x0600, .idle, 0b010) := by decide +kernel

theorem test_hyp_OnlyFinRevealsTheState :
    decode ⟨0x0400, 0⟩ ≠ .ok .fin ∧ absorbing.ph = (mk .absorb true 0 8 ⟨0, 0, 0, 0⟩).ph ∧
    absorbing.kv = (mk .absorb true 0 8 ⟨0, 0, 0, 0⟩).kv ∧ absorbing.err = (mk .absorb true 0 8 ⟨0, 0, 0, 0⟩).err ∧
    Answers ⟨0x0400, 0⟩ absorbing ⟨.ok, 0⟩ ∧ Answers ⟨0x0400, 0⟩ (mk .absorb true 0 8 ⟨0, 0, 0, 0⟩) ⟨.ok, 0⟩ :=
  ⟨by decide, by decide, by decide, by decide, ⟨_, rfl, by rfl⟩, ⟨_, rfl, by rfl⟩⟩

theorem test_hyp_UnspecifiedRegistersAreUnobservable :
    Alike (presenting ⟨0x0300, 0⟩ keyed) (presenting ⟨0x0300, 0⟩ (mk .idle true 0 5 afterInit)) ∧
    presenting ⟨0x0300, 0⟩ keyed ≠ presenting ⟨0x0300, 0⟩ (mk .idle true 0 5 afterInit) ∧
    Alike bare { bare with k0 := 7, k1 := 9 } ∧ bare ≠ { bare with k0 := 7, k1 := 9 } := by
  unfold Alike; decide

theorem test_hyp_ResetEventClearsControlState :
    ({ padded with err := 0b111, pending := [.reset, .command ⟨0x0700, 0⟩] } : State).pending =
      .reset :: [.command ⟨0x0700, 0⟩] := by decide

theorem test_hyp_OnlyResetClearsOrAbandons :
    (∃ t, step (presenting ⟨0x0600, 0⟩ padded) = .next t ∧
      (presenting ⟨0x0600, 0⟩ padded).pending.head? ≠ some .reset ∧ (presenting ⟨0x0600, 0⟩ padded).kv = true ∧
      (presenting ⟨0x0600, 0⟩ padded).ph = .padded) ∧
    (∃ t, step (presenting ⟨0x0500, 0⟩ absorbing) = .next t ∧
      (presenting ⟨0x0500, 0⟩ absorbing).pending.head? ≠ some .reset ∧
      (presenting ⟨0x0500, 0⟩ absorbing).ph = .absorb) :=
  ⟨⟨_, rfl, by decide, by decide, by decide⟩, ⟨_, rfl, by decide, by decide⟩⟩

theorem test_hyp_PhaseTransitions :
    (∃ t, execCommand ⟨0x0300, 0⟩ keyed = .next t ∧ t.ph ≠ keyed.ph) ∧
    (∃ t, execCommand ⟨0x0507, 0⟩ absorbing = .next t ∧ t.ph ≠ absorbing.ph) ∧
    (∃ t, execCommand ⟨0x0600, 0⟩ padded = .next t ∧ t.ph ≠ padded.ph) ∧
    (∃ t r, execCommand ⟨0x0600, 0⟩ absorbing = .next t ∧ t.responses = absorbing.responses ++ [r] ∧ r.code ≠ .ok) :=
  ⟨⟨_, rfl, by decide⟩, ⟨_, rfl, by decide⟩, ⟨_, rfl, by decide⟩,
   ⟨_, ⟨.exception .sequenceError, 0x0600⟩, rfl, by decide, by decide⟩⟩

theorem test_hyp_StepRunsTheDecodedCommand :
    (presenting ⟨0x0507, 0⟩ absorbing).pending = .command ⟨0x0507, 0⟩ :: [] ∧
    decode ⟨0x0507, 0⟩ = .ok (.cmpl 7 0) := by decide

theorem test_hyp_StepRefusesIllegalCommand :
    (presenting ⟨0x0508, 0⟩ absorbing).pending = .command ⟨0x0508, 0⟩ :: [] ∧
    decode ⟨0x0508, 0⟩ = .error .nonzeroTailBits := by decide

theorem test_hyp_IdleEngineKeepsItsState : absorbing.pending = [] ∧ bare.pending = [] := by decide

theorem test_hyp_StepsRunTheCommandsInOrder :
    bare.pending = [] ∧ (∃ t, runCommands [⟨0x0100, 0⟩, ⟨0x0700, 0⟩] bare = .next t) ∧
    (∃ t, runCommands [] bare = .next t) := ⟨by decide, ⟨_, rfl⟩, ⟨_, rfl⟩⟩

theorem test_hyp_EveryStepKeepsControlInv :
    (ControlInv (presenting ⟨0x0400, 0⟩ (mk .absorb true 0 0xf8 afterInit)) ∧
      ∃ t, step (presenting ⟨0x0400, 0⟩ (mk .absorb true 0 0xf8 afterInit)) = .next t) ∧
    (ControlInv padded ∧ ∃ t, step padded = .next t) :=
  ⟨⟨by unfold ControlInv; decide, _, rfl⟩, by unfold ControlInv; decide, _, rfl⟩

/-- 95_test_vectors.md P1: the ABSORB state of no word, the PADDED state of the empty message. -/
theorem test_hyp_EveryStepKeepsHashInv :
    (HashInv (presenting ⟨0x0500, 0⟩ absorbing) ∧ ∃ t, step (presenting ⟨0x0500, 0⟩ absorbing) = .next t) ∧
    (HashInv padded ∧ ∃ t, step padded = .next t) := by
  refine ⟨⟨?_, _, rfl⟩, ?_, _, rfl⟩
  · exact ⟨rfl, [], by decide, by decide⟩
  · exact ⟨rfl, [], by decide +kernel, by decide⟩

theorem test_hyp_EveryDigestIsASipHash : HashInv padded ∧ padded.ph = .padded :=
  ⟨⟨rfl, [], by decide +kernel, by decide⟩, rfl⟩

theorem test_hyp_LengthLaw : keyed.ph = .idle ∧ keyed.kv = true := by decide

/-- With a STAT and a refused INIT among the words, and a refused CMPW after the final word. -/
theorem test_hyp_DigestIsSipHashOfTheBytesPresented :
    keyed.ph = .idle ∧ keyed.kv = true ∧ decode ⟨0x0300, 1⟩ = .ok .init ∧ decode ⟨0x0501, 0xff61⟩ = .ok (.cmpl 1 0x61) ∧
    decode ⟨0x0600, 0⟩ = .ok .fin ∧
    (∀ c ∈ [Command.mk 0x0400 5, ⟨0x0700, 0⟩, ⟨0x0300, 0⟩, ⟨0x0508, 0⟩], isCmpl c = false) ∧
    (∀ c ∈ [Command.mk 0x0400 5, ⟨0x0500, 0⟩], isFin c = false) := by decide

theorem test_hyp_HashwAnswersSipHash : bare.ph = .idle ∧ State.reset.ph = .idle := ⟨by decide, rfl⟩

theorem test_hyp_HashbAnswersSipHashOrInvalidKeyLength :
    bare.ph = .idle ∧ (List.replicate 16 (0xff : Byte)).length = 16 ∧ ([] : List Byte).length ≠ 16 ∧
    (List.replicate 15 (0xff : Byte)).length ≠ 16 ∧ (List.replicate 17 (0xff : Byte)).length ≠ 16 := by decide

theorem test_hyp_MessageIsReadOnceInOrder :
    0 < fullWords (List.replicate 8 (0 : Byte)) ∧ 1 < fullWords (List.replicate 23 (0 : Byte)) := by decide

theorem test_hyp_InstancesAreIndependent :
    (System.mk [bare, absorbing]).instances[1]? = some absorbing ∧
    (System.mk [bare]).instances[0]? = some bare ∧ (0 : Nat) ≠ 1 := by decide

end Sys2Proof.Tests
end

section
/-! PROOFS. The statements of 10_state.md: the registers, what a host can see of them, and the hash invariant. -/

namespace Sys2Proof.Machine

/-! ### Commands: refused or accepted

`execCommand_cases` read in both directions: forwards from a known refusal or acceptance, backwards from a known next
state. -/

/-- An accepted command has the effect `Accepted` states. -/
theorem exec_of_accepted {i : Instr} {s t : State} (h : Accepted i s t) : exec i s = .next t := by
  cases i with
  | keyw => obtain ⟨hph, rfl⟩ := h; exact if_pos hph
  | keyb => obtain ⟨hph, hn, rfl⟩ := h; exact (if_pos hph).trans (if_pos hn)
  | init => obtain ⟨hph, hkv, rfl⟩ := h; exact if_pos ⟨hph, hkv⟩
  | cmpw => obtain ⟨hph, rfl⟩ := h; exact if_pos hph
  | cmpl => obtain ⟨hph, rfl⟩ := h; exact if_pos hph
  | fin => obtain ⟨hph, rfl⟩ := h; exact if_pos hph
  | stat => subst h; rfl

theorem execCommand_of_accepted {c : Command} {i : Instr} {s t : State} (hd : decode c = .ok i) (h : Accepted i s t) :
    execCommand c s = .next t := by
  rw [execCommand, hd]
  exact exec_of_accepted h

theorem execCommand_of_firstException {c : Command} {s : State} {e : Exception}
    (he : firstException c s.ph s.kv = some e) : execCommand c s = .next (takeException e c.hdr s) := by
  obtain ⟨t, ht, ⟨e', he', rfl⟩ | ⟨hnone, -⟩⟩ := execCommand_cases c s
  · rw [he] at he'; cases he'; exact ht
  · rw [he] at hnone; cases hnone

/-- A command that led to t was refused with its first exception, or accepted. -/
theorem execCommand_inv {c : Command} {s t : State} (h : execCommand c s = .next t) :
    (∃ e, firstException c s.ph s.kv = some e ∧ t = takeException e c.hdr s) ∨
    (firstException c s.ph s.kv = none ∧ ∃ i, decode c = .ok i ∧ Accepted i s t) := by
  obtain ⟨t', ht', hcases⟩ := execCommand_cases c s
  rw [h] at ht'; cases ht'; exact hcases

theorem execCommand_next (c : Command) (s : State) : ∃ t, execCommand c s = .next t :=
  (execCommand_cases c s).imp fun _ h => h.1

theorem step_of_pending_nil {s : State} (h : s.pending = []) : step s = .next s := by
  rw [step, fetch, h]

theorem step_of_pending_reset {s : State} {rest : List HostEvent} (h : s.pending = .reset :: rest) :
    step s = .next (takeReset { s with pending := rest }) := by
  rw [step, fetch, h]; rfl

theorem step_of_pending_command {s : State} {c : Command} {rest : List HostEvent} (h : s.pending = .command c :: rest) :
    step s = execCommand c { s with pending := rest } := by
  rw [step, fetch, h]; rfl

/-- A step always answers a next state (70_reset_and_hazards.md R208). -/
theorem step_next (s : State) : ∃ t, step s = .next t := by
  obtain ⟨-, h⟩ | ⟨rest, -, h⟩ | ⟨c, rest, -, h⟩ := step_cases s
  · exact ⟨_, h⟩
  · exact ⟨_, h⟩
  · exact h ▸ execCommand_next c _

/-- STAT is never refused (60_exceptions.md R172). -/
theorem firstException_stat {c : Command} (hd : decode c = .ok .stat) (ph : Phase) (kv : Bool) :
    firstException c ph kv = none := by
  simp [firstException, hd, precondition]

/-! ### The bytes presented and the reference function

The words W and the tail t of r bytes that commands present are the blocks and the tail of one message, so the words
compressed are those of the reference function (44_system_and_composite.md R151, R154). -/

/-- A full word is le64 of its eight bytes (20_memory.md R52). -/
theorem le64_wordBytes (w : Word) : le64 (wordBytes 8 w) = w := by
  apply BitVec.eq_of_getLsbD_eq
  intro i hi
  have hlane : i / 8 < 8 := by omega
  have hbit : i % 8 < 8 := by omega
  have hpos : 8 * (i / 8) + i % 8 = i := by omega
  rw [le64_getLsbD _ _ hi, wordBytes_getD, if_pos hlane, BitVec.getLsbD_extractLsb', hpos]
  simp [hbit]

theorem length_flatMap_wordBytes (W : List Word) : (W.flatMap (wordBytes 8)).length = 8 * W.length := by
  induction W with
  | nil => rfl
  | cons w W ih => simp [wordBytes_length, ih]; omega

theorem drop_flatMap_wordBytes (W : List Word) (i : Nat) :
    (W.flatMap (wordBytes 8)).drop (8 * i) = (W.drop i).flatMap (wordBytes 8) := by
  induction i generalizing W with
  | zero => rfl
  | succ i ih =>
    cases W with
    | nil => simp
    | cons w W =>
      have hsplit : 8 * (i + 1) = (wordBytes 8 w).length + 8 * i := by rw [wordBytes_length]; omega
      rw [List.flatMap_cons, hsplit, List.drop_length_add_append, ih, List.drop_succ_cons]

theorem length_messageOf (W : List Word) (r : BitVec 3) (t : Word) :
    (messageOf W r t).length = 8 * W.length + r.toNat := by
  rw [messageOf, List.length_append, length_flatMap_wordBytes, wordBytes_length]

theorem fullWords_messageOf (W : List Word) (r : BitVec 3) (t : Word) : fullWords (messageOf W r t) = W.length := by
  rw [fullWords, length_messageOf]; omega

theorem drop_messageOf {W : List Word} {i : Nat} (hi : i ≤ W.length) (r : BitVec 3) (t : Word) :
    (messageOf W r t).drop (8 * i) = messageOf (W.drop i) r t := by
  have hle : 8 * i ≤ (W.flatMap (wordBytes 8)).length := by rw [length_flatMap_wordBytes]; omega
  rw [messageOf, List.drop_append_of_le_length hle, drop_flatMap_wordBytes, messageOf]

theorem blockBytes_messageOf {W : List Word} {i : Nat} (hi : i < W.length) (r : BitVec 3) (t : Word) :
    blockBytes (messageOf W r t) i = wordBytes 8 W[i] := by
  rw [blockBytes, memRead, drop_messageOf hi.le, List.drop_eq_getElem_cons hi, messageOf, List.flatMap_cons,
    List.append_assoc, List.take_left' (wordBytes_length 8 _)]

theorem tailOf_messageOf (W : List Word) (r : BitVec 3) (t : Word) :
    tailOf (messageOf W r t) = wordBytes r.toNat t := by
  have hr : (messageOf W r t).length % 8 = r.toNat := by rw [length_messageOf]; omega
  rw [tailOf, hr, memRead, fullWords_messageOf, drop_messageOf le_rfl, List.drop_length, messageOf, List.flatMap_nil,
    List.nil_append, List.take_of_length_le (wordBytes_length _ _).le]

/-- The blocks of the message, read as words, are the words presented. -/
theorem map_le64_blockBytes_messageOf (W : List Word) (r : BitVec 3) (t : Word) :
    (List.range W.length).map (fun i => le64 (blockBytes (messageOf W r t) i)) = W := by
  apply List.ext_getElem
  · simp
  · intro i _ hi
    simp [blockBytes_messageOf hi, le64_wordBytes]

/-- The reference function on the bytes presented: the words absorbed, then the padded final word
(44_system_and_composite.md R151). -/
theorem absorbMessage_messageOf (k0 k1 : Word) (W : List Word) (r : BitVec 3) (t : Word) :
    absorbMessage k0 k1 (messageOf W r t) =
      compress (absorbWords k0 k1 W) (padWord (wordBytes r.toNat t) (BitVec.ofNat 8 (8 * W.length + r.toNat))) := by
  have hfold : (List.range W.length).foldl (fun v i => compress v (le64 (blockBytes (messageOf W r t) i)))
      (initArx k0 k1) = absorbWords k0 k1 W := by
    rw [absorbWords, ← List.foldl_map (f := fun i => le64 (blockBytes (messageOf W r t) i)),
      map_le64_blockBytes_messageOf]
  rw [absorbMessage, fullWords_messageOf, hfold, tailOf_messageOf, length_messageOf]

theorem absorbWords_concat (k0 k1 : Word) (W : List Word) (m : Word) :
    absorbWords k0 k1 (W ++ [m]) = compress (absorbWords k0 k1 W) m := by
  simp [absorbWords]

/-- The final word CMPL builds is the padded word of its tail bytes (43_pad_final.md R140, R141). -/
theorem finalWord_tailWord (r : BitVec 3) (t : Word) (len8 : Byte) :
    finalWord len8 (tailWord r t) = padWord (wordBytes r.toNat t) len8 := by
  rw [finalWord, tailWord_eq_le64, padWord]

/-- LEN8 counts modulo 256, so adding r to it adds r to the count (43_pad_final.md R142). -/
theorem ofNat_add_tailCount (n : Nat) (r : BitVec 3) :
    BitVec.ofNat 8 n + r.setWidth 8 = BitVec.ofNat 8 (n + r.toNat) := by
  rw [BitVec.ofNat_add, BitVec.ofNat_toNat]

/-! ### The hash invariant -/

theorem hashInv_of_idle {s : State} (h : s.ph = .idle) : HashInv s := by
  simp only [HashInv, h]

theorem hashInv_absorb_iff {s : State} (h : s.ph = .absorb) :
    HashInv s ↔ s.kv = true ∧ ∃ W, s.v = absorbWords s.k0 s.k1 W ∧ s.len8 = BitVec.ofNat 8 (8 * W.length) := by
  simp only [HashInv, h]

theorem hashInv_padded_iff {s : State} (h : s.ph = .padded) :
    HashInv s ↔ s.kv = true ∧ ∃ M, s.v = absorbMessage s.k0 s.k1 M ∧ s.len8 = BitVec.ofNat 8 M.length := by
  simp only [HashInv, h]

/-- INIT starts from no word, CMPW adds one, CMPL closes them to a message; a key load and FIN end in IDLE. -/
theorem accepted_keeps_hashInv {i : Instr} {s t : State} (h : Accepted i s t) (hs : HashInv s) : HashInv t := by
  cases i with
  | keyw => obtain ⟨hph, rfl⟩ := h; exact hashInv_of_idle hph
  | keyb => obtain ⟨hph, -, rfl⟩ := h; exact hashInv_of_idle hph
  | init =>
    obtain ⟨-, hkv, rfl⟩ := h
    exact (hashInv_absorb_iff rfl).2 ⟨hkv, [], rfl, rfl⟩
  | cmpw m =>
    obtain ⟨hph, rfl⟩ := h
    obtain ⟨hkv, W, hv, hlen⟩ := (hashInv_absorb_iff hph).1 hs
    refine (hashInv_absorb_iff (by simpa using hph)).2 ⟨hkv, W ++ [m], ?_, ?_⟩
    · simp [absorbWords_concat, hv]
    · simp [hlen, Nat.mul_add, BitVec.ofNat_add]
  | cmpl r w =>
    obtain ⟨hph, rfl⟩ := h
    obtain ⟨hkv, W, hv, hlen⟩ := (hashInv_absorb_iff hph).1 hs
    refine (hashInv_padded_iff rfl).2 ⟨hkv, messageOf W r w, ?_, ?_⟩
    · simp [absorbMessage_messageOf, finalWord_tailWord, hv, hlen, ofNat_add_tailCount]
    · simp [length_messageOf, hlen, ofNat_add_tailCount]
  | fin => obtain ⟨-, rfl⟩ := h; exact hashInv_of_idle rfl
  | stat => subst h; exact hs

/-- A refusal leaves the registers the invariant speaks of as they were. -/
theorem execCommand_keeps_hashInv {c : Command} {s t : State} (hs : HashInv s) (h : execCommand c s = .next t) :
    HashInv t := by
  obtain ⟨e, -, rfl⟩ | ⟨-, i, -, hacc⟩ := execCommand_inv h
  · exact hs
  · exact accepted_keeps_hashInv hacc hs

/-- Settles O48: the message of the PADDED state is the words absorbed followed by the tail of the CMPL. -/
theorem everyStepKeepsHashInv : Obligations.EveryStepKeepsHashInv := by
  intro s t hs hstep
  obtain ⟨-, h⟩ | ⟨rest, -, h⟩ | ⟨c, rest, -, h⟩ := step_cases s <;> rw [h] at hstep
  · cases hstep; exact hs
  · cases hstep; exact hashInv_of_idle rfl
  · have hrest : HashInv { s with pending := rest } := hs
    exact execCommand_keeps_hashInv hrest hstep

/-- Settles O47: reset leads to IDLE, of which the invariant says nothing. -/
theorem resetMeetsHashInv : Obligations.ResetMeetsHashInv := hashInv_of_idle rfl

/-! ### Reset and the control invariant -/

theorem reset_ph : State.reset.ph = .idle := rfl

theorem controlInv_of_idle {s : State} (h : s.ph = .idle) : ControlInv s := by
  simp [ControlInv, h]

/-- Settles O45: reset leads to IDLE, of which the invariant says nothing. -/
theorem resetMeetsControlInv : Obligations.ResetMeetsControlInv := controlInv_of_idle reset_ph

/-- Settles O36: the fields of `State.reset`, and STATUS assembled from three of them. -/
theorem resetState : Obligations.ResetState := by
  have hstatus : statusBits 0 false .idle = 0x00 := by decide
  exact ⟨reset_ph, rfl, rfl, hstatus⟩

/-! ### STATUS -/

/-- STATUS is the concatenation of 10_state.md R27, so a bit of it is a bit of one of the five fields. -/
theorem statusView_getLsbD (s : State) (i : Nat) :
    (statusView s).getLsbD i =
      if i < 2 then s.ph.code.getLsbD i
      else if i - 2 < 1 then (kvBit s.kv).getLsbD (i - 2)
      else if i - 2 - 1 < 1 then (0#1).getLsbD (i - 2 - 1)
      else if i - 2 - 1 - 1 < 3 then s.err.getLsbD (i - 2 - 1 - 1)
      else (0#1).getLsbD (i - 2 - 1 - 1 - 3) := by
  change BitVec.getLsbD (w := 1 + 3 + 1 + 1 + 2) (0#1 ++ s.err ++ 0#1 ++ kvBit s.kv ++ s.ph.code) i = _
  simp only [BitVec.getLsbD_append]

/-- Settles O23: the phase fills bits 1:0, and each bit above them falls in the field `statusView_getLsbD` names. -/
theorem statusFieldsAreWhereTheTableSays : Obligations.StatusFieldsAreWhereTheTableSays := by
  intro s
  have hph : (statusView s).extractLsb' 0 2 = s.ph.code := by
    apply BitVec.eq_of_getLsbD_eq
    intro i hi
    rw [BitVec.getLsbD_extractLsb', statusView_getLsbD]
    simp [hi]
  refine ⟨hph, ?_, ?_, ?_, ?_, ?_, ?_⟩ <;> rw [statusView_getLsbD] <;> simp [kvBit]

/-! ### ERR -/

/-- An exception sets exactly one bit of ERR (10_state.md R26). -/
theorem errBit_cases (e : Exception) : e.errBit = 1 ∨ e.errBit = 2 ∨ e.errBit = 4 := by
  cases e <;> decide

/-- No accepted command but STAT reads ERR. -/
theorem accepted_withErr {i : Instr} {s t : State} (hi : i ≠ .stat) (h : Accepted i s t) (e : BitVec 3) :
    Accepted i { s with err := e } { t with err := e } := by
  cases i with
  | keyw => obtain ⟨hph, rfl⟩ := h; exact ⟨hph, rfl⟩
  | keyb => obtain ⟨hph, hn, rfl⟩ := h; exact ⟨hph, hn, rfl⟩
  | init => obtain ⟨hph, hkv, rfl⟩ := h; exact ⟨hph, hkv, rfl⟩
  | cmpw => obtain ⟨hph, rfl⟩ := h; exact ⟨hph, rfl⟩
  | cmpl => obtain ⟨hph, rfl⟩ := h; exact ⟨hph, rfl⟩
  | fin => obtain ⟨hph, rfl⟩ := h; exact ⟨hph, rfl⟩
  | stat => exact absurd rfl hi

/-- Settles O32: the bit b is the reported exception's, and none when the command is accepted. -/
theorem errIsStickyAndInert : Obligations.ErrIsStickyAndInert := by
  intro c s t h
  obtain ⟨x, hx, rfl⟩ | ⟨-, i, hd, hacc⟩ := execCommand_inv h
  · have hstat : decode c ≠ .ok .stat := fun hd => by simp [firstException_stat hd] at hx
    exact ⟨x.errBit, rfl, .inr (errBit_cases x), fun e =>
      ⟨_, execCommand_of_firstException hx, rfl, fun _ => rfl, fun hd => absurd hd hstat⟩⟩
  · obtain ⟨-, -, herr, -⟩ := accepted_responses hacc
    refine ⟨0, by simp [herr], .inl rfl, fun e => ?_⟩
    by_cases hi : i = .stat
    · subst hi; cases hacc
      exact ⟨_, execCommand_of_accepted hd rfl, by simp, fun hne => absurd hd hne, fun _ => rfl⟩
    · have hne : decode c ≠ .ok .stat := by simpa [hd] using hi
      exact ⟨_, execCommand_of_accepted hd (accepted_withErr hi hacc e), by simp, fun _ => by simp,
        fun hs => absurd hs hne⟩

/-! ### Responses -/

theorem answers_of_firstException {c : Command} {s : State} {r : Response} {e : Exception}
    (he : firstException c s.ph s.kv = some e) (h : Answers c s r) : r = ⟨.exception e, c.hdr.setWidth 64⟩ := by
  obtain ⟨t, ht, hr⟩ := h
  rw [execCommand_of_firstException he] at ht; cases ht
  simpa using hr.symm

theorem answers_of_firstException_none {c : Command} {s : State} {r : Response}
    (hnone : firstException c s.ph s.kv = none) (h : Answers c s r) :
    ∃ i d, decode c = .ok i ∧ r = ⟨.ok, d⟩ ∧ (i = .fin → d = digestOf s.v) ∧
      (i = .stat → d = (statusView s).setWidth 64) ∧ (i ≠ .fin → i ≠ .stat → d = 0) := by
  obtain ⟨t, ht, hr⟩ := h
  obtain ⟨e, he, -⟩ | ⟨-, i, hd, hacc⟩ := execCommand_inv ht
  · rw [hnone] at he; cases he
  · obtain ⟨d, hresp, -, -, hdata⟩ := accepted_responses hacc
    exact ⟨i, d, hd, by simpa [hresp] using hr.symm, hdata⟩

/-- Settles O34: the exception depends on the command, PH and KV, and what an accepted command but FIN answers on STATUS
alone. -/
theorem onlyFinRevealsTheState : Obligations.OnlyFinRevealsTheState := by
  intro c s s' r r' hfin hph hkv herr h h'
  cases he : firstException c s.ph s.kv with
  | some e =>
    have he' : firstException c s'.ph s'.kv = some e := by rw [← hph, ← hkv, he]
    rw [answers_of_firstException he h, answers_of_firstException he' h']
  | none =>
    have he' : firstException c s'.ph s'.kv = none := by rw [← hph, ← hkv, he]
    obtain ⟨i, d, hd, rfl, -, hstat, hother⟩ := answers_of_firstException_none he h
    obtain ⟨i', d', hd', rfl, -, hstat', hother'⟩ := answers_of_firstException_none he' h'
    rw [hd] at hd'; cases hd'
    by_cases hi : i = .stat
    · rw [hstat hi, hstat' hi, statusView, statusView, hph, hkv, herr]
    · have hne : i ≠ .fin := by rintro rfl; exact hfin hd
      rw [hother hne hi, hother' hne hi]

/-! ### The phase -/

/-- The only accepted commands that change PH (10_state.md R24). -/
theorem accepted_ph {i : Instr} {s t : State} (h : Accepted i s t) :
    t.ph = s.ph ∨ (s.ph = .idle ∧ t.ph = .absorb ∧ i = .init) ∨
    (s.ph = .absorb ∧ t.ph = .padded ∧ ∃ r w, i = .cmpl r w) ∨ (s.ph = .padded ∧ t.ph = .idle ∧ i = .fin) := by
  cases i with
  | keyw => obtain ⟨-, rfl⟩ := h; exact .inl rfl
  | keyb => obtain ⟨-, -, rfl⟩ := h; exact .inl rfl
  | init => obtain ⟨hph, -, rfl⟩ := h; exact .inr (.inl ⟨hph, rfl, rfl⟩)
  | cmpw => obtain ⟨-, rfl⟩ := h; exact .inl rfl
  | cmpl r w => obtain ⟨hph, rfl⟩ := h; exact .inr (.inr (.inl ⟨hph, rfl, r, w, rfl⟩))
  | fin => obtain ⟨hph, rfl⟩ := h; exact .inr (.inr (.inr ⟨hph, rfl, rfl⟩))
  | stat => subst h; exact .inl rfl

/-- Settles O39: a refusal keeps PH, and of the accepted commands only INIT, CMPL and FIN change it. -/
theorem phaseTransitions : Obligations.PhaseTransitions := by
  refine ⟨fun c s t h => ?_, fun s => ⟨takeReset s, rfl, rfl⟩⟩
  obtain ⟨e, -, rfl⟩ | ⟨-, i, hd, hacc⟩ := execCommand_inv h
  · exact ⟨fun hne => absurd rfl hne, fun _ _ _ => rfl⟩
  constructor
  · intro hne
    obtain heq | ⟨hs, ht, rfl⟩ | ⟨hs, ht, r, w, rfl⟩ | ⟨hs, ht, rfl⟩ := accepted_ph hacc
    · exact absurd heq hne
    · exact .inl ⟨hs, ht, hd⟩
    · exact .inr (.inl ⟨hs, ht, by rw [isCmpl, hd]⟩)
    · exact .inr (.inr ⟨hs, ht, hd⟩)
  · intro r hr hcode
    obtain ⟨d, hresp, -⟩ := accepted_responses hacc
    have hok : r = ⟨.ok, d⟩ := by simpa [hresp] using hr.symm
    exact absurd (congrArg Response.code hok) hcode

/-! ### Unspecified registers -/

theorem alike_pending {s t : State} (h : Alike s t) : s.pending = t.pending := by
  obtain ⟨-, -, -, hpend, -⟩ := h
  exact hpend

/-- Alike states refuse the same commands with the same exception. -/
theorem alike_firstException {s t : State} (h : Alike s t) (c : Command) :
    firstException c s.ph s.kv = firstException c t.ph t.kv := by
  obtain ⟨hph, hkv, -⟩ := h
  rw [hph, hkv]

theorem alike_withPending {s t : State} (h : Alike s t) (rest : List HostEvent) :
    Alike { s with pending := rest } { t with pending := rest } := by
  obtain ⟨hph, hkv, herr, -, hresp, hkey, harx⟩ := h
  exact ⟨hph, hkv, herr, rfl, hresp, hkey, harx⟩

theorem alike_takeReset {s t : State} (h : Alike s t) : Alike (takeReset s) (takeReset t) := by
  obtain ⟨-, -, -, hpend, hresp, -, -⟩ := h
  simp [Alike, hpend, hresp]

theorem alike_takeException {s t : State} (h : Alike s t) (e : Exception) (hdr : Hdr) :
    Alike (takeException e hdr s) (takeException e hdr t) := by
  obtain ⟨hph, hkv, herr, hpend, hresp, hkey, harx⟩ := h
  exact ⟨hph, hkv, by simp [herr], hpend, by simp [hresp], hkey, harx⟩

/-- An accepted command reads V and LEN8 only outside IDLE, and the key only when KV is set. -/
theorem alike_accepted {i : Instr} {s t s' : State} (h : Alike s t) (hacc : Accepted i s s') :
    ∃ t', Accepted i t t' ∧ Alike s' t' := by
  obtain ⟨hph, hkv, herr, hpend, hresp, hkey, harx⟩ := h
  cases i with
  | keyw =>
    obtain ⟨hs, rfl⟩ := hacc
    refine ⟨_, ⟨hph ▸ hs, rfl⟩, ?_⟩
    exact ⟨hph, rfl, herr, hpend, by simp [hresp], fun _ => ⟨rfl, rfl⟩, harx⟩
  | keyb =>
    obtain ⟨hs, hn, rfl⟩ := hacc
    refine ⟨_, ⟨hph ▸ hs, hn, rfl⟩, ?_⟩
    exact ⟨hph, rfl, herr, hpend, by simp [hresp], fun _ => ⟨rfl, rfl⟩, harx⟩
  | init =>
    obtain ⟨hs, hk, rfl⟩ := hacc
    refine ⟨_, ⟨hph ▸ hs, hkv ▸ hk, rfl⟩, ?_⟩
    exact ⟨by simp, hkv, herr, hpend, by simp [hresp], hkey, fun _ => by simp [hkey hk]⟩
  | cmpw =>
    obtain ⟨hs, rfl⟩ := hacc
    obtain ⟨hv, hlen⟩ := harx (by simp [hs])
    refine ⟨_, ⟨hph ▸ hs, rfl⟩, ?_⟩
    exact ⟨hph, hkv, herr, hpend, by simp [hresp], hkey, fun _ => by simp [hv, hlen]⟩
  | cmpl =>
    obtain ⟨hs, rfl⟩ := hacc
    obtain ⟨hv, hlen⟩ := harx (by simp [hs])
    refine ⟨_, ⟨hph ▸ hs, rfl⟩, ?_⟩
    exact ⟨by simp, hkv, herr, hpend, by simp [hresp], hkey, fun _ => by simp [hv, hlen]⟩
  | fin =>
    obtain ⟨hs, rfl⟩ := hacc
    obtain ⟨hv, -⟩ := harx (by simp [hs])
    refine ⟨_, ⟨hph ▸ hs, rfl⟩, ?_⟩
    exact ⟨by simp, hkv, herr, hpend, by simp [hresp, hv], hkey, fun hne => absurd rfl hne⟩
  | stat =>
    cases hacc
    refine ⟨_, rfl, ?_⟩
    exact ⟨hph, hkv, herr, hpend, by simp [hresp, statusView, hph, hkv, herr], hkey, harx⟩

theorem alike_execCommand {s t : State} (h : Alike s t) (c : Command) :
    ∃ s' t', execCommand c s = .next s' ∧ execCommand c t = .next t' ∧ Alike s' t' := by
  obtain ⟨s', hs', ⟨e, he, rfl⟩ | ⟨-, i, hd, hacc⟩⟩ := execCommand_cases c s
  · rw [alike_firstException h c] at he
    exact ⟨_, _, hs', execCommand_of_firstException he, alike_takeException h e c.hdr⟩
  · obtain ⟨t', ht, halike⟩ := alike_accepted h hacc
    exact ⟨s', t', hs', execCommand_of_accepted hd ht, halike⟩

/-- Settles O35: alike states present the same event, and each event keeps them alike. -/
theorem unspecifiedRegistersAreUnobservable : Obligations.UnspecifiedRegistersAreUnobservable := by
  intro s t h
  have hpend := alike_pending h
  obtain ⟨hs, hstep⟩ | ⟨rest, hs, hstep⟩ | ⟨c, rest, hs, hstep⟩ := step_cases s <;>
    rw [hs] at hpend <;> rw [hstep]
  · exact ⟨s, t, rfl, step_of_pending_nil hpend.symm, h⟩
  · exact ⟨_, _, rfl, step_of_pending_reset hpend.symm, alike_takeReset (alike_withPending h rest)⟩
  · rw [step_of_pending_command hpend.symm]
    exact alike_execCommand (alike_withPending h rest) c

/-! ### Several instances -/

/-- Settles O55: `stepAt` replaces entry k of the list and no other. -/
theorem instancesAreIndependent : Obligations.InstancesAreIndependent := by
  intro S k s hk
  obtain ⟨t, ht⟩ := step_next s
  have hlt : k < S.instances.length := (List.getElem?_eq_some_iff.1 hk).1
  have hstep : S.stepAt k = some ⟨S.instances.set k t⟩ := by simp [System.stepAt, hk, ht]
  refine ⟨_, t, hstep, ht, ?_, ?_, fun j hj => ?_⟩
  · exact List.getElem?_set_self hlt
  · exact List.length_set
  · exact List.getElem?_set_ne hj.symm

end Sys2Proof.Machine
end

section
/-! PROOFS. The statements of 20_memory.md: byte order, the host's reads of the message, commands one at a time. -/

namespace Sys2Proof.Machine

/-! ### Bytes, lanes and words -/

/-- Byte i of a sequence is on lane i (30_encoding.md R72). -/
theorem lane_dataOfBytes (B : List Byte) {i : Nat} (hi : i < 16) : lane (dataOfBytes B) i = B[i]?.getD 0 := by
  apply BitVec.eq_of_getLsbD_eq
  intro j hj
  have hdiv : (8 * i + j) / 8 = i := by omega
  have hmod : (8 * i + j) % 8 = j := by omega
  rw [lane, BitVec.getLsbD_extractLsb', dataOfBytes_getLsbD _ _ (by omega), hdiv, hmod]
  simp [hj]

theorem lowWord_dataOfBytes (B : List Byte) : lowWord (dataOfBytes B) = le64 B := by
  apply BitVec.eq_of_getLsbD_eq
  intro i hi
  rw [lowWord, BitVec.getLsbD_extractLsb', Nat.zero_add, dataOfBytes_getLsbD _ _ (by omega), le64_getLsbD _ _ hi]
  simp [hi]

theorem lowWord_extractLsb' (d : Data) {i : Nat} (hi : i < 8) : (lowWord d).extractLsb' (8 * i) 8 = lane d i :=
  BitVec.extractLsb'_extractLsb'_of_le (by omega)

theorem highWord_extractLsb' (d : Data) {i : Nat} (hi : i < 8) :
    (highWord d).extractLsb' (8 * i) 8 = lane d (8 + i) := by
  apply BitVec.eq_of_getLsbD_eq
  intro j hj
  have hin : 8 * i + j < 64 := by omega
  have hpos : 64 + (8 * i + j) = 8 * (8 + i) + j := by omega
  simp only [highWord, lane, BitVec.getLsbD_extractLsb', hin, hpos, decide_true, Bool.true_and]

/-- Byte i of le64 B is the byte at index i of B (20_memory.md R52): it is lane i of B on the lanes. -/
theorem le64_extractLsb' (B : List Byte) {i : Nat} (hi : i < 8) : (le64 B).extractLsb' (8 * i) 8 = B[i]?.getD 0 := by
  rw [← lowWord_dataOfBytes, lowWord_extractLsb' _ hi, lane_dataOfBytes B (by omega)]

/-- Lanes 0..7 are the bytes of data[63:0] (30_encoding.md R72). -/
theorem take_laneBytes (d : Data) : (laneBytes 16 d).take 8 = wordBytes 8 (lowWord d) := by
  apply List.ext_getElem
  · simp [laneBytes, wordBytes]
  · intro i _ hi
    rw [wordBytes_length] at hi
    simp [laneBytes, wordBytes, lowWord_extractLsb' d hi]

/-- Lanes 8..15 are the bytes of data[127:64] (30_encoding.md R72). -/
theorem drop_laneBytes (d : Data) : (laneBytes 16 d).drop 8 = wordBytes 8 (highWord d) := by
  apply List.ext_getElem
  · simp [laneBytes, wordBytes]
  · intro i _ hi
    rw [wordBytes_length] at hi
    simp [laneBytes, wordBytes, highWord_extractLsb' d hi]

/-- Settles O9: the lanes are read off bit by bit, le64 is the low half of the lanes, and each half of the operand is le64
of its own bytes. -/
theorem le64IsLittleEndian : Obligations.Le64IsLittleEndian := by
  refine ⟨fun B i hi hlen => ?_, fun B _ => lowWord_dataOfBytes B, fun B i hi hlen => ?_, fun d => ⟨?_, ?_⟩⟩
  · rw [le64_extractLsb' B (hlen ▸ hi), List.getElem?_eq_getElem hi, Option.getD_some]
  · rw [lane_dataOfBytes B (hi.trans_le hlen), List.getElem?_eq_getElem hi, Option.getD_some]
  · rw [take_laneBytes, le64_wordBytes]
  · rw [drop_laneBytes, le64_wordBytes]

/-! ### The host's reads of the message -/

/-- The first n blocks, in order, are the first 8n bytes (20_memory.md R54). -/
theorem flatMap_blockBytes (M : List Byte) (n : Nat) : (List.range n).flatMap (blockBytes M) = M.take (8 * n) := by
  induction n with
  | zero => simp
  | succ n ih =>
    rw [List.range_succ, List.flatMap_append, ih, List.flatMap_singleton, blockBytes, memRead, Nat.mul_succ,
      List.take_add]

/-- A read in range gives as many bytes as it asks for (20_memory.md R51). -/
theorem length_memRead {M : List Byte} {addr n : Nat} (h : addr + n ≤ M.length) : (memRead M addr n).length = n := by
  rw [memRead, List.length_take, List.length_drop]; omega

theorem length_eq_fullWords (M : List Byte) : 8 * fullWords M + M.length % 8 = M.length := Nat.div_add_mod _ _

/-- The tail is everything after the full blocks (20_memory.md R54). -/
theorem tailOf_eq_drop (M : List Byte) : tailOf M = M.drop (8 * fullWords M) := by
  have hlen := length_eq_fullWords M
  rw [tailOf, memRead, List.take_of_length_le (by rw [List.length_drop]; omega)]

/-- Settles O54: the blocks are the first 8q bytes, the tail is the rest. -/
theorem messageIsReadOnceInOrder : Obligations.MessageIsReadOnceInOrder := by
  intro M
  have hlen := length_eq_fullWords M
  refine ⟨?_, fun i hi => ?_, hlen, length_memRead hlen.le⟩
  · rw [flatMap_blockBytes, tailOf_eq_drop, List.take_append_drop]
  · have hin : 8 * i + 8 ≤ M.length := by omega
    exact ⟨hin, length_memRead hin⟩

/-! ### Commands one at a time -/

theorem execCommand_of_decode {c : Command} {i : Instr} (hd : decode c = .ok i) (s : State) :
    execCommand c s = exec i s := by
  rw [execCommand, hd]

theorem keyLanesOk_keyLanes (n : Byte) (d : Data) : keyLanesOk n (keyLanes n d) = true := by
  rw [keyLanesOk, keyLanes]
  split
  next h => rw [h]; rfl
  next => exact Bool.or_true _

/-- The decoder gives well-formed instructions only (30_encoding.md R75). -/
theorem wellFormed_of_decode {c : Command} {i : Instr} (hd : decode c = .ok i) : i.wellFormed = true := by
  obtain ⟨-, h⟩ | ⟨-, h⟩ | ⟨-, h⟩ | ⟨-, h⟩ | ⟨-, h⟩ | ⟨-, h⟩ | ⟨-, h⟩ | ⟨-, h⟩ := decode_cases c <;>
    rw [h] at hd <;> cases hd
  · rfl
  · exact keyLanesOk_keyLanes _ _
  · rfl
  · rfl
  · exact tailFits_tailWord _ _
  · rfl
  · rfl

/-- Settles O40: a step executes the command presented, and that is `exec` of what it decodes to. -/
theorem stepRunsTheDecodedCommand : Obligations.StepRunsTheDecodedCommand := by
  intro c i rest s hpend hd
  exact ⟨wellFormed_of_decode hd, by rw [step_of_pending_command hpend, execCommand_of_decode hd]⟩

/-- An accepted command reads nothing of what the host will do next. -/
theorem accepted_withPending {i : Instr} {s t : State} (h : Accepted i s t) (p : List HostEvent) :
    Accepted i { s with pending := p } { t with pending := p } := by
  cases i with
  | keyw => obtain ⟨hph, rfl⟩ := h; exact ⟨hph, rfl⟩
  | keyb => obtain ⟨hph, hn, rfl⟩ := h; exact ⟨hph, hn, rfl⟩
  | init => obtain ⟨hph, hkv, rfl⟩ := h; exact ⟨hph, hkv, rfl⟩
  | cmpw => obtain ⟨hph, rfl⟩ := h; exact ⟨hph, rfl⟩
  | cmpl => obtain ⟨hph, rfl⟩ := h; exact ⟨hph, rfl⟩
  | fin => obtain ⟨hph, rfl⟩ := h; exact ⟨hph, rfl⟩
  | stat => subst h; rfl

/-- A command does the same whatever the host will do next (20_memory.md R59). -/
theorem execCommand_withPending {c : Command} {s t : State} (h : execCommand c s = .next t) (p : List HostEvent) :
    execCommand c { s with pending := p } = .next { t with pending := p } := by
  obtain ⟨e, he, rfl⟩ | ⟨-, i, hd, hacc⟩ := execCommand_inv h
  · exact execCommand_of_firstException he
  · exact execCommand_of_accepted hd (accepted_withPending hacc p)

theorem execCommand_pending {c : Command} {s t : State} (h : execCommand c s = .next t) : t.pending = s.pending := by
  obtain ⟨e, -, rfl⟩ | ⟨-, i, -, hacc⟩ := execCommand_inv h
  · rfl
  · obtain ⟨-, -, -, hpend, -⟩ := accepted_responses hacc
    exact hpend

theorem runCommands_cons {c : Command} {s u : State} (h : execCommand c s = .next u) (cs : List Command) :
    runCommands (c :: cs) s = runCommands cs u := by
  rw [runCommands, h]

theorem run_succ_of_step {s t : State} (h : step s = .next t) (k : Nat) :
    Sys2Proof.core.run (k + 1) s = Sys2Proof.core.run k t := by
  have hstep : Sys2Proof.core.step s = .next t := h
  simp only [Host.Core.run, hstep]

/-- Settles O44, by induction on the commands: the step on the first one leads where presenting it alone does, with the
other commands still to come. -/
theorem stepsRunTheCommandsInOrder : Obligations.StepsRunTheCommandsInOrder := by
  intro cs
  induction cs with
  | nil =>
    intro s t hpend h
    cases h
    rw [List.map_nil, ← hpend]; rfl
  | cons c cs ih =>
    intro s t hpend h
    obtain ⟨u, hu⟩ := execCommand_next c s
    have hstep : step { s with pending := (c :: cs).map .command } = .next { u with pending := cs.map .command } :=
      (step_of_pending_command rfl).trans (execCommand_withPending hu _)
    rw [runCommands_cons hu] at h
    exact (run_succ_of_step hstep _).trans (ih u t ((execCommand_pending hu).trans hpend) h)

end Sys2Proof.Machine
end

section
/-! PROOFS. The statements of 30_encoding.md: the opcode map, the decoder and the encoder, the data bits a command uses, the
assembler lines, and the response to a command. -/

namespace Sys2Proof

/-! ### A command as one bit vector -/

theorem bits_commandOfBits (b : BitVec 144) : (commandOfBits b).bits = b := by
  have h := BitVec.extractLsb'_append_extractLsb'_eq_extractLsb' (x := b) (start₁ := 0) (len₁ := 128)
    (start₂ := 128) (len₂ := 16) rfl
  exact h.trans BitVec.extractLsb'_eq_self

theorem commandOfBits_bits (c : Command) : commandOfBits c.bits = c := by
  have hhdr : c.bits.extractLsb' 128 16 = c.hdr := BitVec.extractLsb'_append_eq_left
  have hdata : c.bits.extractLsb' 0 128 = c.data := BitVec.extractLsb'_append_eq_right
  rw [commandOfBits, hhdr, hdata]

theorem bits_toNat (c : Command) : c.bits.toNat = c.hdr.toNat * 2 ^ 128 + c.data.toNat := by
  have h : c.bits.toNat = c.hdr.toNat <<< 128 ||| c.data.toNat := BitVec.toNat_append _ _
  rw [h, ← Nat.shiftLeft_add_eq_or_of_lt c.data.isLt, Nat.shiftLeft_eq]

/-- Settles O7: the header is the high 16 bits, the data the low 128. -/
theorem commandBitsRoundTrip : Obligations.CommandBitsRoundTrip :=
  ⟨fun c => ⟨commandOfBits_bits c, bits_toNat c⟩, bits_commandOfBits⟩

/-! ### The halves of the data operand -/

theorem lowWord_append (k1 k0 : Word) : lowWord (k1 ++ k0) = k0 := BitVec.extractLsb'_append_eq_right

theorem highWord_append (k1 k0 : Word) : highWord (k1 ++ k0) = k1 := BitVec.extractLsb'_append_eq_left

theorem highWord_append_lowWord (d : Data) : highWord d ++ lowWord d = d := by
  have h := BitVec.extractLsb'_append_extractLsb'_eq_extractLsb' (x := d) (start₁ := 0) (len₁ := 64)
    (start₂ := 64) (len₂ := 64) rfl
  exact h.trans BitVec.extractLsb'_eq_self

theorem lowWord_setWidth (m : Word) : lowWord (m.setWidth 128) = m :=
  (BitVec.extractLsb'_setWidth_of_le (by decide)).trans BitVec.extractLsb'_eq_self

/-- Masking data[63:0] is masking the operand with the same mask, zero above bit 63. -/
theorem setWidth_lowWord_and (d : Data) (m : Word) : (lowWord d &&& m).setWidth 128 = d &&& m.setWidth 128 := by
  apply BitVec.eq_of_getLsbD_eq
  intro i hi
  by_cases h : i < 64
  · simp [lowWord, h, hi]
  · simp [BitVec.getLsbD_of_ge m i (by omega), hi]

/-! ### Decode of encode -/

theorem keyLanes_of_keyLanesOk {n : Byte} {kb : Data} (h : keyLanesOk n kb = true) : keyLanes n kb = kb := by
  rw [keyLanes]
  split
  next => rfl
  next hn => simp_all [keyLanesOk]

/-- Settles O2: each form has the header the decoder knows it by, and reads back its operands from the lanes they were
written on. -/
theorem decodeOfEncodeIsTheInstruction : Obligations.DecodeOfEncodeIsTheInstruction := by
  intro i hwf
  cases i with
  | keyw k0 k1 => exact (decode_keyw (k1 ++ k0)).trans (by rw [lowWord_append, highWord_append])
  | keyb n kb => exact (decode_keyb n kb).trans (by rw [keyLanes_of_keyLanesOk hwf])
  | init => exact decode_init 0
  | cmpw m => exact (decode_cmpw (m.setWidth 128)).trans (by rw [lowWord_setWidth])
  | cmpl r t => exact (decode_cmpl r (t.setWidth 128)).trans (by rw [lowWord_setWidth, tailWord_of_fits r t hwf])
  | fin => exact decode_fin 0
  | stat => exact decode_stat 0

/-- Settles O1: each legal header is one the decoder's laws name, and the operands of these data are computed. -/
theorem specWordsDecode : Obligations.SpecWordsDecode := by
  refine ⟨decode_keyw _, decode_keyb 16 _, decode_keyb 255 _, decode_init _, decode_cmpw _, decode_cmpl 1 _,
    decode_cmpl 7 _, decode_fin _, decode_stat _, ?_, ?_, ?_⟩ <;> decide

/-! ### The data bits a command uses -/

theorem usedDataMask_keyw : usedDataMask 0x0100 = BitVec.allOnes 128 := by decide

theorem usedDataMask_keyb (n : Byte) :
    usedDataMask (0x0200 + n.setWidth 16) = if n = 16 then BitVec.allOnes 128 else 0 := by
  have hrows : ∀ n : Byte, rowKeyw.selects (0x0200 + n.setWidth 16) = false ∧
      rowKeyb.selects (0x0200 + n.setWidth 16) = true := by decide
  obtain ⟨hkeyw, hkeyb⟩ := hrows n
  simp only [usedDataMask, hkeyw, hkeyb, (fields_keyb n).2]; rfl

theorem usedDataMask_init : usedDataMask 0x0300 = 0 := by decide

theorem usedDataMask_cmpw : usedDataMask 0x0400 = (BitVec.allOnes 64).setWidth 128 := by decide

theorem usedDataMask_cmpl (r : BitVec 3) :
    usedDataMask (0x0500 + r.setWidth 16) = (tailMask r).setWidth 128 := by
  revert r; decide

theorem usedDataMask_fin : usedDataMask 0x0600 = 0 := by decide

theorem usedDataMask_stat : usedDataMask 0x0700 = 0 := by decide

theorem keyLanes_eq_and (n : Byte) (d : Data) :
    keyLanes n d = d &&& usedDataMask (0x0200 + n.setWidth 16) := by
  rw [usedDataMask_keyb, keyLanes]
  split
  · exact BitVec.and_allOnes.symm
  · exact BitVec.and_zero.symm

/-- A decoded instruction holds the used data bits and nothing of the others (30_encoding.md R75, R78). -/
theorem data_of_decode {c : Command} {i : Instr} (hd : decode c = .ok i) : i.data = c.data &&& usedDataMask i.hdr := by
  obtain ⟨-, h⟩ | ⟨-, h⟩ | ⟨-, h⟩ | ⟨-, h⟩ | ⟨-, h⟩ | ⟨-, h⟩ | ⟨-, h⟩ | ⟨-, h⟩ := decode_cases c <;>
    rw [h] at hd <;> cases hd <;> simp only [Instr.data, Instr.hdr]
  · rw [highWord_append_lowWord, usedDataMask_keyw, BitVec.and_allOnes]
  · exact keyLanes_eq_and _ _
  · rw [usedDataMask_init]; exact BitVec.and_zero.symm
  · rw [usedDataMask_cmpw, ← setWidth_lowWord_and, BitVec.and_allOnes]
  · rw [usedDataMask_cmpl, ← setWidth_lowWord_and, tailWord]
  · rw [usedDataMask_fin]; exact BitVec.and_zero.symm
  · rw [usedDataMask_stat]; exact BitVec.and_zero.symm

theorem encode_of_decode {c : Command} {i : Instr} (hd : decode c = .ok i) :
    encode i = ⟨c.hdr, c.data &&& usedDataMask c.hdr⟩ := by
  rw [encode, data_of_decode hd, hdr_of_decode hd]

/-- Settles O3: the header is kept whole, the data on the used bits. -/
theorem encodeOfDecodeKeepsUsedBits : Obligations.EncodeOfDecodeKeepsUsedBits :=
  fun _ _ hd => ⟨Machine.wellFormed_of_decode hd, encode_of_decode hd⟩

/-! ### The opcode map

The opcode field alone tells the rows apart, so at most one selects a header; a header is legal when one does. -/

theorem opField_mask {row : OpcodeRow} (h : row ∈ opcodeMap) : opField row.mask = BitVec.allOnes 8 := by
  revert row; decide

theorem row_eq_of_opField {a b : OpcodeRow} (ha : a ∈ opcodeMap) (hb : b ∈ opcodeMap)
    (h : opField a.matchBits = opField b.matchBits) : a = b := by
  have hrows : ∀ a ∈ opcodeMap, ∀ b ∈ opcodeMap, opField a.matchBits = opField b.matchBits → a = b := by decide
  exact hrows a ha b hb h

theorem selects_iff (row : OpcodeRow) (h : Hdr) : row.selects h = true ↔ h &&& row.mask = row.matchBits := by
  rw [OpcodeRow.selects, beq_iff_eq]

theorem opField_of_selects {row : OpcodeRow} {h : Hdr} (hrow : row ∈ opcodeMap) (hsel : row.selects h = true) :
    opField h = opField row.matchBits := by
  rw [← (selects_iff row h).1 hsel, opField, opField, BitVec.extractLsb'_and, ← opField, ← opField, opField_mask hrow,
    BitVec.and_allOnes]

theorem row_unique {h : Hdr} {a b : OpcodeRow} (ha : a ∈ opcodeMap) (hb : b ∈ opcodeMap) (hsa : a.selects h = true)
    (hsb : b.selects h = true) : a = b :=
  row_eq_of_opField ha hb ((opField_of_selects ha hsa).symm.trans (opField_of_selects hb hsb))

theorem row_mem (i : Instr) : i.row ∈ opcodeMap := by
  cases i <;> simp [Instr.row, opcodeMap]

/-- The header an instruction is encoded with selects its row (30_encoding.md R74, R81). -/
theorem selects_hdr (i : Instr) : i.row.selects i.hdr = true := by
  cases i with
  | keyw k0 k1 => exact Laws.HeaderSelectsRow.keyw k0 k1
  | keyb n kb => exact Laws.HeaderSelectsRow.keyb n kb
  | init => exact Laws.HeaderSelectsRow.init
  | cmpw m => exact Laws.HeaderSelectsRow.cmpw m
  | cmpl r t => exact Laws.HeaderSelectsRow.cmpl r t
  | fin => exact Laws.HeaderSelectsRow.fin
  | stat => exact Laws.HeaderSelectsRow.stat

theorem selects_of_decode {c : Command} {i : Instr} (hd : decode c = .ok i) : i.row.selects c.hdr = true :=
  hdr_of_decode hd ▸ selects_hdr i

/-- The header selects a row of the opcode map (30_encoding.md R74). -/
def Legal (h : Hdr) : Prop := ∃ row ∈ opcodeMap, row.selects h = true

theorem any_selects_iff_legal (h : Hdr) : (opcodeMap.any fun row => row.selects h) = true ↔ Legal h := List.any_eq_true

theorem legal_of_decode {c : Command} {i : Instr} (hd : decode c = .ok i) : Legal c.hdr :=
  ⟨i.row, row_mem i, selects_of_decode hd⟩

/-- The decoder refuses a header only when no row selects it, and names its case of 30_encoding.md R76. -/
theorem decode_error_inv {c : Command} {x : IllegalHeader} (hd : decode c = .error x) :
    ¬ Legal c.hdr ∧ x = illegalCase c.hdr := by
  obtain ⟨-, h⟩ | ⟨-, h⟩ | ⟨-, h⟩ | ⟨-, h⟩ | ⟨-, h⟩ | ⟨-, h⟩ | ⟨-, h⟩ | ⟨hno, h⟩ := decode_cases c <;>
    rw [h] at hd <;> cases hd
  rw [← any_selects_iff_legal, hno]
  exact ⟨Bool.false_ne_true, rfl⟩

theorem exists_decode_ok_iff (c : Command) : (∃ i, decode c = .ok i) ↔ Legal c.hdr := by
  refine ⟨fun ⟨_, hd⟩ => legal_of_decode hd, fun hlegal => ?_⟩
  cases hd : decode c with
  | ok i => exact ⟨i, rfl⟩
  | error x => exact absurd hlegal (decode_error_inv hd).1

theorem exists_decode_error_iff (c : Command) : (∃ x, decode c = .error x) ↔ ¬ Legal c.hdr := by
  refine ⟨fun ⟨_, hd⟩ => (decode_error_inv hd).1, fun hno => ?_⟩
  cases hd : decode c with
  | ok i => exact absurd (legal_of_decode hd) hno
  | error x => exact ⟨x, rfl⟩

/-- Settles O5: the rows differ in their opcode, and a decoded command's own row selects its header. -/
theorem opcodeRowsAreDisjoint : Obligations.OpcodeRowsAreDisjoint := by
  refine ⟨rfl, selects_iff, fun _ _ _ => row_unique, fun c i hd => ⟨row_mem i, selects_of_decode hd⟩,
    fun row c hrow hsel => ?_, fun c hno => ?_⟩
  · obtain ⟨i, hd⟩ := (exists_decode_ok_iff c).2 ⟨row, hrow, hsel⟩
    exact ⟨i, hd, row_unique (row_mem i) hrow (selects_of_decode hd) hsel⟩
  · refine (exists_decode_error_iff c).2 fun ⟨row, hrow, hsel⟩ => ?_
    rw [hno row hrow] at hsel; cases hsel

/-! ### Legal headers -/

/-- Bits 7:3 of the header are the argument without its tail count. -/
theorem argField_and_f8 (h : Hdr) : argField h &&& 0xF8 = 0 ↔ h.extractLsb' 3 5 = (0 : BitVec 5) := by
  have hbits : ∀ a : Byte, a &&& 0xF8 = 0 ↔ a.extractLsb' 3 5 = (0 : BitVec 5) := by decide
  have hsub : (argField h).extractLsb' 3 5 = h.extractLsb' 3 5 := BitVec.extractLsb'_extractLsb'_of_le (by decide)
  rw [hbits, hsub]

theorem selects_keyb_iff_opField (h : Hdr) : rowKeyb.selects h = true ↔ opField h = 2 := by
  have hmatch : (0x0200 : Hdr) = ((2 : Byte) ++ (0 : Byte) : BitVec (8 + 8)) := by decide
  rw [selects_iff, rowKeyb, and_ff00, hmatch, append_eq_iff]
  exact and_iff_left rfl

theorem selects_cmpl_iff_fields (h : Hdr) :
    rowCmpl.selects h = true ↔ opField h = 5 ∧ h.extractLsb' 3 5 = (0 : BitVec 5) := by
  have hmatch : (0x0500 : Hdr) = ((5 : Byte) ++ (0 : Byte) : BitVec (8 + 8)) := by decide
  rw [selects_iff, rowCmpl, and_fff8, hmatch, append_eq_iff, argField_and_f8]

/-- The legal headers by their fields, in the order of the rows (30_encoding.md R74). -/
theorem legal_iff_fields (h : Hdr) : Legal h ↔
    (opField h = 1 ∧ argField h = 0) ∨ opField h = 2 ∨ (opField h = 3 ∧ argField h = 0) ∨
    (opField h = 4 ∧ argField h = 0) ∨ (opField h = 5 ∧ h.extractLsb' 3 5 = (0 : BitVec 5)) ∨
    (opField h = 6 ∧ argField h = 0) ∨ (opField h = 7 ∧ argField h = 0) := by
  have hkeyw := (selects_keyw_iff h).trans hdr_eq_iff
  have hinit := (selects_init_iff h).trans hdr_eq_iff
  have hcmpw := (selects_cmpw_iff h).trans hdr_eq_iff
  have hfin := (selects_fin_iff h).trans hdr_eq_iff
  have hstat := (selects_stat_iff h).trans hdr_eq_iff
  simp only [Legal, opcodeMap, List.exists_mem_cons_iff, List.not_mem_nil, false_and, exists_false, or_false]
  exact or_congr hkeyw (or_congr (selects_keyb_iff_opField h) (or_congr hinit (or_congr hcmpw
    (or_congr (selects_cmpl_iff_fields h) (or_congr hfin hstat)))))

theorem opcode_cases (op : Byte) :
    8 ≤ op.toNat ∨ op = 0 ∨ op = 1 ∨ op = 2 ∨ op = 3 ∨ op = 4 ∨ op = 5 ∨ op = 6 ∨ op = 7 := by
  revert op; decide

/-- The cases (a), (b), (c) of 30_encoding.md R76 are what the rows leave out. -/
theorem not_legal_iff_fields (h : Hdr) : ¬ Legal h ↔
    (opField h = 0 ∨ 8 ≤ (opField h).toNat) ∨
    ((opField h = 1 ∨ opField h = 3 ∨ opField h = 4 ∨ opField h = 6 ∨ opField h = 7) ∧ argField h ≠ 0) ∨
    (opField h = 5 ∧ h.extractLsb' 3 5 ≠ (0 : BitVec 5)) := by
  rw [legal_iff_fields]
  obtain hop | hop | hop | hop | hop | hop | hop | hop | hop := opcode_cases (opField h)
  · have hne : ∀ k : Byte, k.toNat < 8 → opField h ≠ k := fun k hk e => by rw [e] at hop; omega
    simp [hop, hne]
  all_goals simp [hop]

/-- The numbers of the legal headers, row by row (30_encoding.md R74, R76). -/
def legalNumbers : List Nat :=
  [0x0100] ++ List.range' 0x0200 256 ++ [0x0300, 0x0400] ++ List.range' 0x0500 8 ++ [0x0600, 0x0700]

/-- Each block of the list lies below the blocks after it. -/
theorem legalNumbers_sorted : legalNumbers.Pairwise (· < ·) := by
  have hrange : ∀ first n : Nat, (List.range' first n).Pairwise (· < ·) := fun _ _ => List.pairwise_lt_range'
  simp only [legalNumbers, List.cons_append, List.nil_append, List.append_assoc, List.pairwise_append,
    List.pairwise_cons, hrange, List.Pairwise.nil, List.mem_append, List.mem_range'_1, List.mem_cons,
    List.not_mem_nil, or_false, false_implies, implies_true, true_and, and_true]
  refine ⟨?_, ⟨?_, ?_, ?_, ?_⟩, ?_⟩ <;> omega

theorem length_legalNumbers : legalNumbers.length = 269 := by simp [legalNumbers]

theorem opField_ofNat_toNat {n : Nat} (hn : n < 65536) : (opField (BitVec.ofNat 16 n)).toNat = n / 256 := by
  rw [opField, BitVec.extractLsb'_toNat, BitVec.toNat_ofNat, Nat.shiftRight_eq_div_pow]; omega

theorem argField_ofNat_toNat (n : Nat) : (argField (BitVec.ofNat 16 n)).toNat = n % 256 := by
  rw [argField, BitVec.extractLsb'_toNat, BitVec.toNat_ofNat, Nat.shiftRight_zero]; omega

theorem tailBits_ofNat_toNat {n : Nat} (hn : n < 65536) :
    ((BitVec.ofNat 16 n).extractLsb' 3 5).toNat = n / 8 % 32 := by
  rw [BitVec.extractLsb'_toNat, BitVec.toNat_ofNat, Nat.shiftRight_eq_div_pow]; omega

theorem mem_legalNumbers_iff (n : Nat) : n ∈ legalNumbers ↔
    n = 0x0100 ∨ (0x0200 ≤ n ∧ n < 0x0300) ∨ n = 0x0300 ∨ n = 0x0400 ∨ (0x0500 ≤ n ∧ n < 0x0508) ∨
    n = 0x0600 ∨ n = 0x0700 := by
  simp only [legalNumbers, List.mem_append, List.mem_range'_1, List.mem_cons, List.not_mem_nil, or_false]
  omega

theorem legal_ofNat_iff {n : Nat} (hn : n < 65536) : Legal (BitVec.ofNat 16 n) ↔ n ∈ legalNumbers := by
  simp only [mem_legalNumbers_iff, legal_iff_fields, ← BitVec.toNat_inj, opField_ofNat_toNat hn, argField_ofNat_toNat n,
    tailBits_ofNat_toNat hn, BitVec.ofNat_eq_ofNat, BitVec.toNat_ofNat]
  omega

theorem lt_of_mem_legalNumbers {n : Nat} (h : n ∈ legalNumbers) : n < 65536 := by
  rw [mem_legalNumbers_iff] at h; omega

/-- The legal headers, counted up from 0, are the numbers listed. -/
theorem length_filter_legal :
    ((List.range 65536).filter fun n => opcodeMap.any fun row => row.selects (BitVec.ofNat 16 n)).length = 269 := by
  have hmem : ∀ n, n ∈ (List.range 65536).filter (fun n => opcodeMap.any fun row => row.selects (BitVec.ofNat 16 n)) ↔
      n ∈ legalNumbers := fun n => by
    rw [List.mem_filter, List.mem_range, any_selects_iff_legal]
    exact ⟨fun ⟨hn, hlegal⟩ => (legal_ofNat_iff hn).1 hlegal,
      fun h => ⟨lt_of_mem_legalNumbers h, (legal_ofNat_iff (lt_of_mem_legalNumbers h)).2 h⟩⟩
  have hperm := (List.perm_ext_iff_of_nodup (List.nodup_range.filter _) legalNumbers_sorted.nodup).2 hmem
  exact hperm.length_eq.trans length_legalNumbers

end Sys2Proof

namespace Sys2Proof.Machine

theorem execCommand_of_decode_error {c : Command} {x : IllegalHeader} (hd : decode c = .error x) (s : State) :
    execCommand c s = .next (takeException .illegalCommand c.hdr s) := by
  rw [execCommand, hd]

/-- Settles O4: the illegal headers are those that select no row, and of the legal ones 1 + 256 + 1 + 1 + 8 + 1 + 1 are in
the rows. -/
theorem illegalHeadersAreRefused : Obligations.IllegalHeadersAreRefused := by
  refine ⟨fun h d => ?_, fun h d s ⟨x, hd⟩ => execCommand_of_decode_error hd s, length_filter_legal, fun h d => ?_⟩
  · exact (exists_decode_error_iff ⟨h, d⟩).trans (not_legal_iff_fields h)
  · exact (exists_decode_ok_iff ⟨h, d⟩).trans (any_selects_iff_legal h).symm

/-! ### Unused data bits -/

/-- A command decodes as the command with its unused data bits written as 0 (30_encoding.md R78). -/
theorem decode_and_usedDataMask (h : Hdr) (d : Data) : decode ⟨h, d &&& usedDataMask h⟩ = decode ⟨h, d⟩ := by
  cases hd : decode ⟨h, d⟩ with
  | ok i => exact encode_of_decode hd ▸ decodeOfEncodeIsTheInstruction i (wellFormed_of_decode hd)
  | error x =>
    obtain ⟨hno, rfl⟩ := decode_error_inv hd
    obtain ⟨y, hy⟩ := (exists_decode_error_iff ⟨h, d &&& usedDataMask h⟩).2 hno
    rw [hy, (decode_error_inv hy).2]

theorem execCommand_and_usedDataMask (h : Hdr) (d : Data) (s : State) :
    execCommand ⟨h, d &&& usedDataMask h⟩ s = execCommand ⟨h, d⟩ s := by
  rw [execCommand, decode_and_usedDataMask]; rfl

theorem tailMask_toNat (r : BitVec 3) : (tailMask r).toNat = 2 ^ (8 * r.toNat) - 1 := tailMask_ofNat_toNat r

/-- Settles O8: what a command does is what it does with its unused bits written as 0. -/
theorem unusedDataBitsAreIgnored : Obligations.UnusedDataBitsAreIgnored := by
  refine ⟨fun h d e s hde => ?_, usedDataMask_init, usedDataMask_fin, usedDataMask_stat, ?_, fun r => ?_, fun n hn => ?_⟩
  · rw [← execCommand_and_usedDataMask h d, hde, execCommand_and_usedDataMask]
  · rw [usedDataMask_cmpw]; rfl
  · rw [usedDataMask_cmpl, BitVec.toNat_setWidth_of_le (by decide), tailMask_toNat]
  · rw [usedDataMask_keyb, if_neg hn]

/-! ### The assembler lines -/

/-- Eight bytes or fewer fill no lane above lane 7 (30_encoding.md R81). -/
theorem dataOfBytes_eq_setWidth_le64 {B : List Byte} (h : B.length ≤ 8) : dataOfBytes B = (le64 B).setWidth 128 := by
  apply BitVec.eq_of_getLsbD_eq
  intro i hi
  rw [dataOfBytes_getLsbD B i hi, BitVec.getLsbD_setWidth]
  by_cases hlow : i < 64
  · simp [le64_getLsbD B i hlow, hi]
  · have hnone : B[i / 8]? = none := List.getElem?_eq_none (by omega)
    simp [hnone, BitVec.getLsbD_of_ge (le64 B) i (by omega)]

theorem decode_asmKeyb (n : Byte) (B : List Byte) :
    decode (asmKeyb n.toNat B) = .ok (.keyb n (keyLanes n (dataOfBytes B))) := by
  rw [asmKeyb, BitVec.ofNat_toNat, decode_keyb]

theorem asmCmpw_eq_encode {B : List Byte} (h : B.length = 8) : asmCmpw B = encode (.cmpw (le64 B)) := by
  rw [asmCmpw, dataOfBytes_eq_setWidth_le64 h.le]; rfl

theorem asmCmpl_eq_encode {r : BitVec 3} {B : List Byte} (h : B.length = r.toNat) :
    asmCmpl r.toNat B = encode (.cmpl r (le64 B)) := by
  rw [asmCmpl, dataOfBytes_eq_setWidth_le64 (by omega), BitVec.ofNat_toNat]; rfl

/-- Settles O6: eight bytes or fewer are their le64 on lanes 0..7, and KEYB with n not 16 keeps no lane. -/
theorem assemblerLinesEncode : Obligations.AssemblerLinesEncode := by
  refine ⟨fun _ _ => rfl, fun _ _ => rfl, fun n B hn _ => ?_, rfl, fun _ => asmCmpw_eq_encode,
    fun _ _ => asmCmpl_eq_encode, rfl, rfl⟩
  rw [decode_asmKeyb, keyLanes, if_neg hn]

/-! ### The response -/

/-- A code is 0 to 3 (30_encoding.md R80). -/
theorem respCode_code_le (r : RespCode) : r.code.toNat ≤ 3 := by
  obtain _ | _ | _ | _ := r <;> decide

/-- Settles O33: a refused command answers with its exception's code and its header, an accepted one with OK and the data
`accepted_responses` states. -/
theorem everyCommandIsAnsweredOnce : Obligations.EveryCommandIsAnsweredOnce := by
  refine ⟨rfl, rfl, rfl, rfl, fun c s => ?_⟩
  obtain ⟨t, ht, ⟨e, -, rfl⟩ | ⟨-, i, hd, hacc⟩⟩ := execCommand_cases c s
  · exact ⟨_, ⟨.exception e, c.hdr.setWidth 64⟩, ht, rfl, rfl, respCode_code_le _, nofun, fun _ => rfl⟩
  · obtain ⟨d, hresp, -, hpend, hdata⟩ := accepted_responses hacc
    exact ⟨t, ⟨.ok, d⟩, ht, hresp, hpend, respCode_code_le _, fun _ => ⟨i, hd, hdata⟩, fun hne => absurd rfl hne⟩

end Sys2Proof.Machine
end

section
/-! PROOFS. The statements of 40_key.md: the two key loads, and who writes the key registers. -/

namespace Sys2Proof.Machine

/-! ### Refused with IllegalCommand -/

theorem execCommand_of_not_legal {c : Command} (h : ¬ Legal c.hdr) (s : State) :
    execCommand c s = .next (takeException .illegalCommand c.hdr s) := by
  obtain ⟨x, hx⟩ := (exists_decode_error_iff c).2 h
  exact execCommand_of_decode_error hx s

/-- Case (b) of 30_encoding.md R76: the five commands without an argument. -/
theorem not_legal_of_argField_ne_zero {h : Hdr}
    (hop : opField h = 1 ∨ opField h = 3 ∨ opField h = 4 ∨ opField h = 6 ∨ opField h = 7) (harg : argField h ≠ 0) :
    ¬ Legal h :=
  (not_legal_iff_fields h).2 (.inr (.inl ⟨hop, harg⟩))

/-! ### KEYW and KEYB -/

theorem exec_keyw_of_ne_idle {s : State} (h : s.ph ≠ .idle) (k0 k1 : Word) :
    exec (.keyw k0 k1) s = .next (takeException .sequenceError 0x0100 s) := if_neg h

theorem exec_keyb_of_ne_idle {s : State} (h : s.ph ≠ .idle) (n : Byte) (kb : Data) :
    exec (.keyb n kb) s = .next (takeException .sequenceError (0x0200 + n.setWidth 16) s) := if_neg h

theorem exec_keyb_of_ne_sixteen {s : State} (h : s.ph = .idle) {n : Byte} (hn : n ≠ 16) (kb : Data) :
    exec (.keyb n kb) s = .next (takeException .invalidKeyLength (0x0200 + n.setWidth 16) s) :=
  (if_pos h).trans (if_neg hn)

/-- The header of KEYB as response data (60_exceptions.md R175): no carry leaves the 16 bits. -/
theorem setWidth_hdr_keyb : ∀ n : Byte, (0x0200 + n.setWidth 16 : Hdr).setWidth 64 = 0x0200 + n.setWidth 64 := by decide

theorem le64_take_laneBytes (d : Data) : le64 ((laneBytes 16 d).take 8) = lowWord d := by
  rw [take_laneBytes, le64_wordBytes]

theorem le64_drop_laneBytes (d : Data) : le64 ((laneBytes 16 d).drop 8) = highWord d := by
  rw [drop_laneBytes, le64_wordBytes]

/-- Settles O16: a non-zero argument selects no row, and the phase decides between SequenceError and the load. -/
theorem keywLoadsWordsInIdle : Obligations.KeywLoadsWordsInIdle := by
  refine fun s => ⟨fun h d hop harg => ?_, decode_keyw, fun k0 k1 hph => ?_, fun k0 k1 hph => ?_⟩
  · exact execCommand_of_not_legal (c := ⟨h, d⟩) (not_legal_of_argField_ne_zero (.inl hop) harg) s
  · exact exec_keyw_of_ne_idle hph k0 k1
  · exact exec_of_accepted ⟨hph, rfl⟩

/-- Settles O17: the phase is looked at before n, and the two halves of the operand are le64 of their lanes. -/
theorem keybLoadsSixteenBytesInIdle : Obligations.KeybLoadsSixteenBytesInIdle := by
  refine fun s n => ⟨decode_keyb n, fun kb hph => ?_, fun kb hph hn => ?_, fun kb hph hn => ?_⟩
  · rw [exec_keyb_of_ne_idle hph, takeException, setWidth_hdr_keyb]; rfl
  · rw [exec_keyb_of_ne_sixteen hph hn, takeException, setWidth_hdr_keyb]; rfl
  · rw [le64_take_laneBytes, le64_drop_laneBytes]
    exact exec_of_accepted ⟨hph, hn, rfl⟩

/-- Settles O25: both commands are accepted and load the two halves of the operand. -/
theorem keybOfSixteenIsKeyw : Obligations.KeybOfSixteenIsKeyw := by
  intro d s hph
  have hkeyb : execCommand ⟨0x0210, d⟩ s = .next (respond .ok 0 (loadKey (lowWord d) (highWord d) s)) :=
    execCommand_of_accepted (decode_keyb 16 d) ⟨hph, rfl, rfl⟩
  have hkeyw : execCommand ⟨0x0100, d⟩ s = .next (respond .ok 0 (loadKey (lowWord d) (highWord d) s)) :=
    execCommand_of_accepted (decode_keyw d) ⟨hph, rfl⟩
  rw [hkeyb, hkeyw]

/-! ### Who writes the key -/

/-- The accepted key loads are KEYW and KEYB of sixteen bytes, in IDLE. -/
theorem acceptedKey_eq_some_iff {c : Command} {s : State} {k0 k1 : Word} :
    acceptedKey c s = some (k0, k1) ↔ s.ph = .idle ∧
      (decode c = .ok (.keyw k0 k1) ∨ ∃ kb, decode c = .ok (.keyb 16 kb) ∧ lowWord kb = k0 ∧ highWord kb = k1) := by
  unfold acceptedKey
  split
  next a b hd => simp [hd]
  next n kb hd => simp [hd, and_assoc]
  next hkeyw hkeyb =>
    refine ⟨nofun, ?_⟩
    rintro ⟨-, hd | ⟨kb, hd, -⟩⟩
    · exact (hkeyw _ _ hd).elim
    · exact (hkeyb _ _ hd).elim

theorem execCommand_of_acceptedKey {c : Command} {s : State} {k0 k1 : Word} (h : acceptedKey c s = some (k0, k1)) :
    execCommand c s = .next (respond .ok 0 (loadKey k0 k1 s)) := by
  obtain ⟨hph, hd | ⟨kb, hd, rfl, rfl⟩⟩ := acceptedKey_eq_some_iff.1 h
  · exact execCommand_of_accepted hd ⟨hph, rfl⟩
  · exact execCommand_of_accepted hd ⟨hph, rfl, rfl⟩

/-- An accepted command that is no key load leaves K0, K1 and KV (40_key.md R103). -/
theorem accepted_keeps_key {c : Command} {i : Instr} {s t : State} (hd : decode c = .ok i) (h : Accepted i s t)
    (hnone : acceptedKey c s = none) : t.k0 = s.k0 ∧ t.k1 = s.k1 ∧ t.kv = s.kv := by
  cases i with
  | keyw =>
    obtain ⟨hph, -⟩ := h
    cases hnone.symm.trans (acceptedKey_eq_some_iff.2 ⟨hph, .inl hd⟩)
  | keyb =>
    obtain ⟨hph, rfl, -⟩ := h
    cases hnone.symm.trans (acceptedKey_eq_some_iff.2 ⟨hph, .inr ⟨_, hd, rfl, rfl⟩⟩)
  | init => obtain ⟨-, -, rfl⟩ := h; exact ⟨rfl, rfl, rfl⟩
  | cmpw => obtain ⟨-, rfl⟩ := h; exact ⟨rfl, rfl, rfl⟩
  | cmpl => obtain ⟨-, rfl⟩ := h; exact ⟨rfl, rfl, rfl⟩
  | fin => obtain ⟨-, rfl⟩ := h; exact ⟨rfl, rfl, rfl⟩
  | stat => subst h; exact ⟨rfl, rfl, rfl⟩

/-- Settles O26: a refusal writes no key register, an accepted command that is no key load neither, and an accepted load
writes its own words. -/
theorem onlyAcceptedKeyLoadsWriteTheKey : Obligations.OnlyAcceptedKeyLoadsWriteTheKey := by
  refine fun c s t h => ⟨fun hnone => ?_, fun k0 k1 hkey => ?_⟩
  · obtain ⟨e, -, rfl⟩ | ⟨-, i, hd, hacc⟩ := execCommand_inv h
    · exact ⟨rfl, rfl, rfl⟩
    · exact accepted_keeps_key hd hacc hnone
  · have hload := execCommand_of_acceptedKey hkey
    obtain ⟨hph, -⟩ := acceptedKey_eq_some_iff.1 hkey
    rw [h] at hload; cases hload
    exact ⟨hph, rfl, rfl, rfl⟩

end Sys2Proof.Machine
end

section
/-! PROOFS. The statements of 41_arx_round.md: addition, rotation, SipRound, Compress. -/

namespace Sys2Proof.Machine

/-! ### Addition and rotation -/

theorem add64_toNat (a b : Word) : (add64 a b).toNat = (a.toNat + b.toNat) % 2 ^ 64 := BitVec.toNat_add a b

/-- Settles O11: the carry is the quotient that the remainder drops. -/
theorem additionWraps : Obligations.AdditionWraps := add64_toNat

theorem rotl64_eq_rotateLeft (x : Word) {n : Nat} (hn : n < 64) : rotl64 x n = x.rotateLeft n :=
  (BitVec.rotateLeft_eq_rotateLeftAux_of_lt hn).symm

/-- Where each bit of a rotated word comes from (41_arx_round.md R111). -/
theorem rotl64_getLsbD (x : Word) {n i : Nat} (hn : n < 64) (hi : i < 64) :
    (rotl64 x n).getLsbD i = if i < n then x.getLsbD (64 - n + i) else x.getLsbD (i - n) := by
  rw [rotl64_eq_rotateLeft x hn, BitVec.getLsbD_rotateLeft_of_le hn, Bool.cond_decide, decide_eq_true hi, Bool.true_and]

/-- Where each bit goes. -/
theorem rotl64_getLsbD_add_mod (x : Word) {n i : Nat} (hn : n < 64) (hi : i < 64) :
    (rotl64 x n).getLsbD ((i + n) % 64) = x.getLsbD i := by
  rw [rotl64_getLsbD x hn (Nat.mod_lt _ (by decide))]
  by_cases hwrap : i + n < 64
  · have hsrc : i + n - n = i := by omega
    rw [Nat.mod_eq_of_lt hwrap, if_neg (by omega), hsrc]
  · have hmod : (i + n) % 64 = i + n - 64 := by omega
    have hsrc : 64 - n + (i + n - 64) = i := by omega
    rw [hmod, if_pos (by omega), hsrc]

theorem rotl64_eq_append (x : Word) {n : Nat} (hn : n < 64) :
    rotl64 x n = (x.extractLsb' 0 (64 - n) ++ x.extractLsb' (64 - n) n).setWidth 64 := by
  apply BitVec.eq_of_getLsbD_eq
  intro i hi
  rw [rotl64_getLsbD x hn hi, BitVec.getLsbD_setWidth, BitVec.getLsbD_append]
  by_cases hlow : i < n
  · simp [hlow, hi]
  · have hbit : i - n < 64 - n := by omega
    simp [hlow, hi, hbit]

/-- The two shifted parts share no bit, so their or is their sum. -/
theorem rotl64_toNat (x : Word) {n : Nat} (hn : n < 64) :
    (rotl64 x n).toNat = (x.toNat * 2 ^ n) % 2 ^ 64 + x.toNat / 2 ^ (64 - n) := by
  have hsplit : 2 ^ 64 = 2 ^ (64 - n) * 2 ^ n := by rw [← Nat.pow_add, Nat.sub_add_cancel hn.le]
  have hhigh : (x.toNat * 2 ^ n) % 2 ^ 64 = (x.toNat % 2 ^ (64 - n)) <<< n := by
    rw [hsplit, Nat.mul_mod_mul_right, Nat.shiftLeft_eq]
  have hlow : x.toNat / 2 ^ (64 - n) < 2 ^ n := Nat.div_lt_of_lt_mul (hsplit ▸ x.isLt)
  rw [rotl64, BitVec.toNat_or, BitVec.toNat_shiftLeft, BitVec.toNat_ushiftRight, Nat.shiftLeft_eq,
    Nat.shiftRight_eq_div_pow, hhigh, Nat.shiftLeft_add_eq_or_of_lt hlow]

/-- Settles O12: the rotation as two parts put together, as a sum, and bit by bit. -/
theorem rotationIsCircular : Obligations.RotationIsCircular :=
  fun x _ _ hn => ⟨rotl64_eq_append x hn, rotl64_toNat x hn, fun _ hi => rotl64_getLsbD_add_mod x hn hi⟩

/-! ### SipRound -/

theorem runSteps_append (fs gs : List (Arx → Arx)) (v : Arx) : runSteps (fs ++ gs) v = runSteps gs (runSteps fs v) :=
  List.foldl_append

theorem sipRound_eq_runSteps (v : Arx) : sipRound v = runSteps (sipS1to4 ++ sipS5to7 ++ sipS8to10 ++ sipS11to14) v := rfl

/-- Settles O13: the fourteen steps one after another compute the four words of the definition; the example is evaluated. -/
theorem sipRoundIsFourteenSteps : Obligations.SipRoundIsFourteenSteps := ⟨sipRound_eq_runSteps, by decide⟩

/-- The two halves of a SipRound: s1 to s7, then s8 to s14. -/
theorem sipRound_eq_halves (v : Arx) :
    sipRound v = runSteps (sipS8to10 ++ sipS11to14) (runSteps (sipS1to4 ++ sipS5to7) v) := by
  rw [sipRound_eq_runSteps, List.append_assoc, runSteps_append]

/-- The groups of the first half work on different words (41_arx_round.md R114 (a)). -/
theorem runSteps_first_half_comm (v : Arx) : runSteps (sipS5to7 ++ sipS1to4) v = runSteps (sipS1to4 ++ sipS5to7) v := rfl

/-- The groups of the second half work on different words. -/
theorem runSteps_second_half_comm (v : Arx) :
    runSteps (sipS11to14 ++ sipS8to10) v = runSteps (sipS8to10 ++ sipS11to14) v := rfl

theorem sipRound_eq_groups_exchanged (v : Arx) :
    sipRound v = runSteps (sipS5to7 ++ sipS1to4 ++ sipS11to14 ++ sipS8to10) v := by
  rw [List.append_assoc, runSteps_append, runSteps_first_half_comm, runSteps_second_half_comm, sipRound_eq_halves]

/-- k0 enters v0 and v2 with different constants, so not both become 0 (41_arx_round.md R114 (b)). -/
theorem initArx_ne_zero (k0 k1 : Word) : initArx k0 k1 ≠ ⟨0, 0, 0, 0⟩ := by
  intro h
  obtain ⟨hv0, -, hv2, -⟩ := Arx.mk.inj h
  have hC : initC0 = initC2 := (BitVec.xor_eq_zero_iff.1 hv0).symm.trans (BitVec.xor_eq_zero_iff.1 hv2)
  exact absurd hC (by decide)

/-! ### SipRound is a bijection

Each half is two add-rotate-xor groups on separate words, and such a group is undone by xor, rotate right, subtract
(41_arx_round.md R114 (c)). -/

/-- No bit is lost, so the rotated word determines the word. -/
theorem rotl64_inj {x y : Word} {n : Nat} (hn : n < 64) (h : rotl64 x n = rotl64 y n) : x = y := by
  apply BitVec.eq_of_getLsbD_eq
  intro i hi
  rw [← rotl64_getLsbD_add_mod x hn hi, h, rotl64_getLsbD_add_mod y hn hi]

/-- The sum, and the rotated summand xored with the sum, determine both summands. -/
theorem add64_rotl64_xor_inj {a b a' b' : Word} {n : Nat} (hn : n < 64) (hsum : add64 a b = add64 a' b')
    (hxor : rotl64 b n ^^^ add64 a b = rotl64 b' n ^^^ add64 a' b') : a = a' ∧ b = b' := by
  rw [hsum, BitVec.xor_left_inj] at hxor
  obtain rfl := rotl64_inj hn hxor
  exact ⟨(BitVec.add_left_inj b).1 hsum, rfl⟩

theorem runSteps_first_half_injective : Function.Injective (runSteps (sipS1to4 ++ sipS5to7)) := by
  rintro ⟨a0, a1, a2, a3⟩ ⟨b0, b1, b2, b3⟩ h
  obtain ⟨h0, h1, h2, h3⟩ := Arx.mk.inj h
  obtain ⟨rfl, rfl⟩ := add64_rotl64_xor_inj (by decide) (rotl64_inj (by decide) h0) h1
  obtain ⟨rfl, rfl⟩ := add64_rotl64_xor_inj (by decide) h2 h3
  rfl

theorem runSteps_second_half_injective : Function.Injective (runSteps (sipS8to10 ++ sipS11to14)) := by
  rintro ⟨a0, a1, a2, a3⟩ ⟨b0, b1, b2, b3⟩ h
  obtain ⟨h0, h1, h2, h3⟩ := Arx.mk.inj h
  obtain ⟨rfl, rfl⟩ := add64_rotl64_xor_inj (by decide) h0 h3
  obtain ⟨rfl, rfl⟩ := add64_rotl64_xor_inj (by decide) (rotl64_inj (by decide) h2) h1
  rfl

theorem sipRound_injective : Function.Injective sipRound := by
  intro v w h
  rw [sipRound_eq_halves, sipRound_eq_halves] at h
  exact runSteps_first_half_injective (runSteps_second_half_injective h)

theorem finite_arx : Finite Arx :=
  Finite.of_injective (fun v : Arx => (v.v0, v.v1, v.v2, v.v3)) fun v w h => by cases v; cases w; cases h; rfl

/-- An injection of the 2^256 states into themselves reaches every state. -/
theorem sipRound_bijective : Function.Bijective sipRound :=
  haveI := finite_arx
  Finite.injective_iff_bijective.1 sipRound_injective

/-- Settles O14: v1 = 1 alone tells the order of the halves apart. -/
theorem sipRoundStructure : Obligations.SipRoundStructure :=
  ⟨sipRound_eq_groups_exchanged, ⟨⟨0, 1, 0, 0⟩, by decide⟩, by decide, initArx_ne_zero, sipRound_bijective⟩

/-! ### Compress -/

theorem compress_of_two_rounds {v0 v1 v2 v3 w u0 u1 u2 u3 : Word}
    (h : sipRound (sipRound ⟨v0, v1, v2, v3 ^^^ w⟩) = ⟨u0, u1, u2, u3⟩) :
    compress ⟨v0, v1, v2, v3⟩ w = ⟨u0 ^^^ w, u1, u2, u3⟩ := by
  rw [compress, h]

theorem compress_zero (v : Arx) : compress v 0 = sipRound (sipRound v) := by
  simp [compress]

/-- Settles O15: the two rounds stand in the definition, and xoring with 0 changes neither word; the example is
evaluated. -/
theorem compressIsTwoRounds : Obligations.CompressIsTwoRounds :=
  ⟨fun _ _ _ _ _ _ _ _ _ h => compress_of_two_rounds h, compress_zero, by decide⟩

end Sys2Proof.Machine
end

section
/-! PROOFS. The statements of 42_init_compress.md: INIT and CMPW. -/

namespace Sys2Proof.Machine

/-! ### INIT -/

theorem exec_init_of_not_ready {s : State} (h : s.ph ≠ .idle ∨ s.kv ≠ true) :
    exec .init s = .next (takeException .sequenceError 0x0300 s) :=
  if_neg (not_and_or.2 h)

/-- Settles O18: a non-zero argument selects no row; without a key or outside IDLE the command is refused, and otherwise
accepted with the four constants xored into the key. -/
theorem initStartsFromTheKey : Obligations.InitStartsFromTheKey := by
  refine fun s => ⟨fun h d hop harg => ?_, decode_init, fun hrefused => ?_, fun hph hkv => ?_⟩
  · exact execCommand_of_not_legal (c := ⟨h, d⟩) (not_legal_of_argField_ne_zero (.inr (.inl hop)) harg) s
  · exact exec_init_of_not_ready hrefused
  · exact exec_of_accepted ⟨hph, hkv, rfl⟩

/-! ### CMPW -/

theorem exec_cmpw_of_ne_absorb {s : State} (h : s.ph ≠ .absorb) (m : Word) :
    exec (.cmpw m) s = .next (takeException .sequenceError 0x0400 s) := if_neg h

/-- LEN8 counts the eight bytes of a full word modulo 256 (42_init_compress.md R132). -/
theorem ofNat_toNat_add_eight_mod (len8 : Byte) : BitVec.ofNat 8 ((len8.toNat + 8) % 256) = len8 + 8 :=
  BitVec.eq_of_toNat_eq (by simp)

/-- Settles O19: a non-zero argument selects no row, and the phase decides between SequenceError and the compression. -/
theorem cmpwCompressesInAbsorb : Obligations.CmpwCompressesInAbsorb := by
  refine fun s => ⟨fun h d hop harg => ?_, decode_cmpw, fun m hph => ?_, fun m hph => ?_⟩
  · exact execCommand_of_not_legal (c := ⟨h, d⟩)
      (not_legal_of_argField_ne_zero (.inr (.inr (.inl hop))) harg) s
  · exact exec_cmpw_of_ne_absorb hph m
  · rw [ofNat_toNat_add_eight_mod]
    exact exec_of_accepted ⟨hph, rfl⟩

end Sys2Proof.Machine
end

section
/-! PROOFS. The statements of 43_pad_final.md: the final padded word, CMPL, FIN, and the length law. -/

namespace Sys2Proof.Machine

/-! ### The final padded word -/

/-- The first sequence fills the low lanes, the second the lanes after it (20_memory.md R52). -/
theorem le64_append (A B : List Byte) : le64 (A ++ B) = le64 A ||| (le64 B <<< (8 * A.length)) := by
  induction A with
  | nil => simp [le64]
  | cons a A ih =>
    have hlen : 8 * (a :: A).length = 8 * A.length + 8 := by rw [List.length_cons, Nat.mul_succ]
    rw [List.cons_append, le64, le64, ih, BitVec.shiftLeft_or_distrib, ← BitVec.shiftLeft_add, ← hlen, BitVec.or_assoc]

theorem le64_replicate_zero (n : Nat) : le64 (List.replicate n 0) = 0 := by
  induction n with
  | zero => rfl
  | succ n ih => rw [List.replicate_succ, le64, ih]; rfl

theorem le64_singleton (b : Byte) : le64 [b] = b.setWidth 64 := by simp [le64]

/-- The eight bytes of the final word in lane order: the tail, zeros up to lane 6, the length byte (43_pad_final.md R140). -/
def padBytes (T : List Byte) (L : Byte) : List Byte := T ++ List.replicate (7 - T.length) 0 ++ [L]

/-- The length byte follows seven bytes, which shifts it to bits 63:56. -/
theorem padWord_eq_le64_padBytes {T : List Byte} (hT : T.length ≤ 7) (L : Byte) : padWord T L = le64 (padBytes T L) := by
  have hlow : le64 (T ++ List.replicate (7 - T.length) 0) = le64 T := by
    rw [le64_append, le64_replicate_zero, BitVec.ofNat_eq_ofNat, BitVec.zero_shiftLeft, BitVec.or_zero]
  have hlen : 8 * (T ++ List.replicate (7 - T.length) 0).length = 56 := by
    rw [List.length_append, List.length_replicate]; omega
  rw [padBytes, le64_append, hlow, hlen, le64_singleton, padWord, BitVec.or_comm]

theorem padWord_extractLsb' {T : List Byte} (hT : T.length ≤ 7) (L : Byte) {j : Nat} (hj : j < 8) :
    (padWord T L).extractLsb' (8 * j) 8 = (padBytes T L)[j]?.getD 0 := by
  rw [padWord_eq_le64_padBytes hT, le64_extractLsb' _ hj]

theorem padBytes_getElem?_tail {T : List Byte} (L : Byte) {j : Nat} (hj : j < T.length) :
    (padBytes T L)[j]? = some T[j] := by
  rw [padBytes, List.append_assoc, List.getElem?_append_left hj, List.getElem?_eq_getElem hj]

theorem padBytes_getElem?_zero {T : List Byte} (L : Byte) {j : Nat} (hle : T.length ≤ j) (hj : j ≤ 6) :
    (padBytes T L)[j]? = some 0 := by
  have hzero : j - T.length < 7 - T.length := by omega
  rw [padBytes, List.append_assoc, List.getElem?_append_right hle, List.getElem?_append_left (by simpa using hzero),
    List.getElem?_replicate, if_pos hzero]

theorem padBytes_getElem?_length {T : List Byte} (hT : T.length ≤ 7) (L : Byte) : (padBytes T L)[7]? = some L := by
  have hlen : (T ++ List.replicate (7 - T.length) 0).length = 7 := by
    rw [List.length_append, List.length_replicate]; omega
  rw [padBytes, List.getElem?_append_right hlen.le, hlen]; rfl

theorem padWord_lengthByte {T : List Byte} (hT : T.length ≤ 7) (L : Byte) : (padWord T L).extractLsb' 56 8 = L := by
  have hlane := padWord_extractLsb' hT L (j := 7) (by decide)
  rw [padBytes_getElem?_length hT] at hlane
  exact hlane

/-- Settles O10: the final word is le64 of its eight bytes, so each lane is the byte at its place in the list. -/
theorem padWordLayout : Obligations.PadWordLayout := by
  refine fun T L hT => ⟨fun j hj => ?_, fun j hle hj => ?_, padWord_lengthByte hT L, padWord_eq_le64_padBytes hT L⟩
  · rw [padWord_extractLsb' hT L (by omega), padBytes_getElem?_tail L hj, Option.getD_some]
  · rw [padWord_extractLsb' hT L (by omega), padBytes_getElem?_zero L hle hj, Option.getD_some]

/-! ### CMPL -/

theorem not_legal_of_tailBits_ne_zero {h : Hdr} (hop : opField h = 5) (hbits : h.extractLsb' 3 5 ≠ (0 : BitVec 5)) :
    ¬ Legal h :=
  (not_legal_iff_fields h).2 (.inr (.inr ⟨hop, hbits⟩))

theorem exec_cmpl_of_ne_absorb {s : State} (h : s.ph ≠ .absorb) (r : BitVec 3) (t : Word) :
    exec (.cmpl r t) s = .next (takeException .sequenceError (0x0500 + r.setWidth 16) s) := if_neg h

/-- The header of CMPL as response data (60_exceptions.md R175). -/
theorem setWidth_hdr_cmpl : ∀ r : BitVec 3, (0x0500 + r.setWidth 16 : Hdr).setWidth 64 = 0x0500 + r.setWidth 64 := by
  decide

/-- LEN8 counts the r bytes of the tail modulo 256 (43_pad_final.md R141). -/
theorem ofNat_toNat_add_tailCount_mod (len8 : Byte) (r : BitVec 3) :
    BitVec.ofNat 8 ((len8.toNat + r.toNat) % 256) = len8 + r.setWidth 8 :=
  BitVec.eq_of_toNat_eq (by simp)

/-- Settles O20: bits 7:3 of the header select no row, the phase decides between SequenceError and the compression, and the
word compressed is the padded word of the tail bytes. -/
theorem cmplCompressesTheFinalWord : Obligations.CmplCompressesTheFinalWord := by
  refine fun s => ⟨fun h d hop hbits => ?_, decode_cmpl, fun r t hph => ?_, fun r t len8 hph hlen => ⟨?_, ?_⟩⟩
  · exact execCommand_of_not_legal (c := ⟨h, d⟩) (not_legal_of_tailBits_ne_zero hop hbits) s
  · rw [exec_cmpl_of_ne_absorb hph, takeException, setWidth_hdr_cmpl]; rfl
  · rw [hlen, ofNat_toNat_add_tailCount_mod]
    exact exec_of_accepted ⟨hph, rfl⟩
  · exact finalWord_tailWord r t len8

/-! ### FIN -/

theorem exec_fin_of_ne_padded {s : State} (h : s.ph ≠ .padded) :
    exec .fin s = .next (takeException .sequenceError 0x0600 s) := if_neg h

/-- Settles O21: a non-zero argument selects no row, and the phase decides between SequenceError and the digest; V and LEN8
are whatever `dropComputation` leaves. -/
theorem finAnswersTheDigest : Obligations.FinAnswersTheDigest := by
  refine fun s => ⟨fun h d hop harg => ?_, decode_fin, fun hph => ?_, fun u hph hu => ?_⟩
  · exact execCommand_of_not_legal (c := ⟨h, d⟩)
      (not_legal_of_argField_ne_zero (.inr (.inr (.inr (.inl hop)))) harg) s
  · exact exec_fin_of_ne_padded hph
  · subst hu
    exact ⟨_, _, _, exec_of_accepted ⟨hph, rfl⟩⟩

/-! ### The length law -/

theorem runCommands_encode_cons {i : Instr} {s u : State} (hwf : i.wellFormed = true) (h : Accepted i s u)
    (cs : List Command) : runCommands (encode i :: cs) s = runCommands cs u :=
  runCommands_cons (execCommand_of_accepted (decodeOfEncodeIsTheInstruction i hwf) h) cs

/-- In ABSORB every CMPW is accepted and adds 8 to LEN8 (42_init_compress.md R132). -/
theorem runCommands_cmpw (W : List Word) : ∀ s : State, s.ph = .absorb →
    ∃ u, runCommands (W.map fun m => encode (.cmpw m)) s = .next u ∧ u.ph = .absorb ∧
      u.len8 = s.len8 + BitVec.ofNat 8 (8 * W.length) := by
  induction W with
  | nil => exact fun s hph => ⟨s, rfl, hph, (BitVec.add_zero s.len8).symm⟩
  | cons m W ih =>
    intro s hph
    have hacc : Accepted (.cmpw m) s _ := ⟨hph, rfl⟩
    obtain ⟨u, hrun, huph, hlen⟩ := ih (respond .ok 0 (writeArx (compress s.v m) (s.len8 + 8) s)) hph
    refine ⟨u, (runCommands_encode_cons rfl hacc _).trans hrun, huph, ?_⟩
    have hcount : 8 * (m :: W).length = 8 + 8 * W.length := by rw [List.length_cons]; omega
    rw [hlen, hcount, BitVec.ofNat_add, ← BitVec.add_assoc]; rfl

/-- INIT sets LEN8 to 0, so after q words it is 8q modulo 256 (43_pad_final.md R142). -/
theorem runCommands_init_cmpw (W : List Word) {s : State} (hph : s.ph = .idle) (hkv : s.kv = true) :
    ∃ u, runCommands (encode .init :: W.map fun m => encode (.cmpw m)) s = .next u ∧ u.ph = .absorb ∧
      u.len8 = BitVec.ofNat 8 (8 * W.length) := by
  have hacc : Accepted .init s _ := ⟨hph, hkv, rfl⟩
  obtain ⟨u, hrun, huph, hlen⟩ :=
    runCommands_cmpw W (respond .ok 0 (setPhase .absorb (writeArx (initArx s.k0 s.k1) 0 s))) rfl
  exact ⟨u, (runCommands_encode_cons rfl hacc _).trans hrun, huph, hlen.trans (BitVec.zero_add _)⟩

/-- Settles O50: LEN8 is a multiple of 8 below 256 before the CMPL, so r < 8 is added without a wrap. -/
theorem lengthLaw : Obligations.LengthLaw := by
  intro W r t s hph hkv
  obtain ⟨u, hrun, huph, hlen⟩ := runCommands_init_cmpw W hph hkv
  have hbefore : u.len8.toNat = 8 * W.length % 256 := by rw [hlen, BitVec.toNat_ofNat]
  have hafter : (u.len8 + r.setWidth 8).toNat = (8 * W.length + r.toNat) % 256 := by
    rw [hlen, ofNat_add_tailCount, BitVec.toNat_ofNat]
  refine ⟨u, _, hrun, huph, hbefore, by omega, exec_of_accepted ⟨huph, rfl⟩, hafter, ?_, ?_, ?_⟩
  · exact (congrArg (· % 8) hafter).trans (by omega)
  · exact congrArg (compress u.v) (finalWord_tailWord r t _)
  · exact padWord_lengthByte (by rw [wordBytes_length]; omega) _

end Sys2Proof.Machine
end

section
/-! PROOFS. The statements of 44_system_and_composite.md: STAT, the digest as the SipHash-2-4 of the bytes presented,
HASHW and HASHB. -/

namespace Sys2Proof.Machine

/-! ### STAT -/

/-- Settles O22: a non-zero argument selects no row; with argument 0 the command is accepted in every state. -/
theorem statAnswersTheStatus : Obligations.StatAnswersTheStatus := by
  refine fun s => ⟨fun h d hop harg => ?_, decode_stat, ?_⟩
  · exact execCommand_of_not_legal (c := ⟨h, d⟩)
      (not_legal_of_argField_ne_zero (.inr (.inr (.inr (.inr hop)))) harg) s
  · have hacc : Accepted .stat s _ := rfl
    exact exec_of_accepted hacc

/-! ### The computation in progress

What the ARX words and LEN8 hold of the computation under the key k0, k1, first while words are absorbed, then after the
final word. They are `HashInv` with the words and the message named. -/

/-- In ABSORB, with the words W absorbed under the key k0, k1 (42_init_compress.md R131, R132). -/
structure AbsorbedWords (k0 k1 : Word) (W : List Word) (s : State) : Prop where
  ph : s.ph = .absorb
  v : s.v = absorbWords k0 k1 W
  len8 : s.len8 = BitVec.ofNat 8 (8 * W.length)

/-- In PADDED, with the message M absorbed under the key k0, k1 (43_pad_final.md R141). -/
structure AbsorbedMessage (k0 k1 : Word) (M : List Byte) (s : State) : Prop where
  ph : s.ph = .padded
  v : s.v = absorbMessage k0 k1 M

variable {k0 k1 : Word} {W : List Word} {M : List Byte} {s t u : State} {c : Command} {i : Instr}

theorem absorbedWords_of_init (h : Accepted .init s t) : AbsorbedWords s.k0 s.k1 [] t := by
  obtain ⟨-, -, rfl⟩ := h
  exact ⟨rfl, rfl, rfl⟩

theorem AbsorbedWords.cmpw (hs : AbsorbedWords k0 k1 W s) {m : Word} (h : Accepted (.cmpw m) s t) :
    AbsorbedWords k0 k1 (W ++ [m]) t := by
  obtain ⟨hph, rfl⟩ := h
  refine ⟨hph, ?_, ?_⟩
  · simp [absorbWords_concat, hs.v]
  · simp [hs.len8, Nat.mul_add, BitVec.ofNat_add]

theorem AbsorbedWords.cmpl (hs : AbsorbedWords k0 k1 W s) {r : BitVec 3} {w : Word} (h : Accepted (.cmpl r w) s t) :
    AbsorbedMessage k0 k1 (messageOf W r w) t := by
  obtain ⟨-, rfl⟩ := h
  refine ⟨rfl, ?_⟩
  simp [absorbMessage_messageOf, finalWord_tailWord, hs.v, hs.len8, ofNat_add_tailCount]

theorem AbsorbedMessage.fin (hs : AbsorbedMessage k0 k1 M s) (h : Accepted .fin s t) :
    t.ph = .idle ∧ t.responses = s.responses ++ [⟨.ok, sipHash24 k0 k1 M⟩] := by
  obtain ⟨-, rfl⟩ := h
  exact ⟨rfl, by rw [sipHash24, ← hs.v]; rfl⟩

/-- Settles O49: in PADDED the hash invariant names the message whose digest FIN answers. -/
theorem everyDigestIsASipHash : Obligations.EveryDigestIsASipHash := by
  intro s hs hph
  obtain ⟨-, M, hv, hlen⟩ := (hashInv_padded_iff hph).1 hs
  have hacc : Accepted .fin s _ := ⟨hph, rfl⟩
  exact ⟨_, M, exec_of_accepted hacc, (AbsorbedMessage.fin ⟨hph, hv⟩ hacc).2, hlen⟩

/-! ### Commands in between -/

theorem presentedWord_eq_some_iff {m : Word} : presentedWord c = some m ↔ decode c = .ok (.cmpw m) := by
  unfold presentedWord
  split
  next m' hd => rw [hd, Option.some.injEq, Except.ok.injEq, Instr.cmpw.injEq]
  next hne => exact ⟨nofun, fun hd => absurd hd (hne m)⟩

theorem isCmpl_of_decode {r : BitVec 3} {w : Word} (hd : decode c = .ok (.cmpl r w)) : isCmpl c = true := by
  rw [isCmpl, hd]

theorem isFin_of_decode (hd : decode c = .ok .fin) : isFin c = true := by
  rw [isFin, hd]

/-- In ABSORB a command other than CMPL absorbs the word it presents, and without a word it is STAT or refused. -/
theorem execCommand_absorbs_presentedWord (hs : AbsorbedWords k0 k1 W s) (hc : isCmpl c = false)
    (h : execCommand c s = .next t) : AbsorbedWords k0 k1 (W ++ (presentedWord c).toList) t := by
  cases hw : presentedWord c with
  | some m =>
    have hacc : Accepted (.cmpw m) s _ := ⟨hs.ph, rfl⟩
    rw [execCommand_of_accepted (presentedWord_eq_some_iff.1 hw) hacc] at h
    cases h
    exact hs.cmpw hacc
  | none =>
    rw [Option.toList_none, List.append_nil]
    obtain ⟨e, -, rfl⟩ | ⟨-, i, hd, hacc⟩ := execCommand_inv h
    · exact ⟨hs.ph, hs.v, hs.len8⟩
    cases i with
    | keyw | keyb | init | fin =>
      obtain ⟨hph, -⟩ := hacc
      cases hs.ph.symm.trans hph
    | cmpw => cases hw.symm.trans (presentedWord_eq_some_iff.2 hd)
    | cmpl => cases hc.symm.trans (isCmpl_of_decode hd)
    | stat => cases hacc; exact ⟨hs.ph, hs.v, hs.len8⟩

/-- In PADDED a command other than FIN is STAT or refused. -/
theorem execCommand_keeps_absorbedMessage (hs : AbsorbedMessage k0 k1 M s) (hc : isFin c = false)
    (h : execCommand c s = .next t) : AbsorbedMessage k0 k1 M t := by
  obtain ⟨e, -, rfl⟩ | ⟨-, i, hd, hacc⟩ := execCommand_inv h
  · exact ⟨hs.ph, hs.v⟩
  cases i with
  | keyw | keyb | init | cmpw | cmpl =>
    obtain ⟨hph, -⟩ := hacc
    cases hs.ph.symm.trans hph
  | fin => cases hc.symm.trans (isFin_of_decode hd)
  | stat => cases hacc; exact ⟨hs.ph, hs.v⟩

theorem presentedWords_cons (c : Command) (cs : List Command) :
    presentedWords (c :: cs) = (presentedWord c).toList ++ presentedWords cs := by
  cases hw : presentedWord c <;> simp [presentedWords, hw]

theorem runCommands_absorbs_presentedWords {body : List Command} : ∀ {W : List Word} {s : State},
    AbsorbedWords k0 k1 W s → (∀ c ∈ body, isCmpl c = false) →
    ∃ u, runCommands body s = .next u ∧ AbsorbedWords k0 k1 (W ++ presentedWords body) u := by
  induction body with
  | nil => exact fun {W s} hs _ => ⟨s, rfl, (List.append_nil W).symm ▸ hs⟩
  | cons c cs ih =>
    intro W s hs hbody
    obtain ⟨hc, hcs⟩ := List.forall_mem_cons.1 hbody
    obtain ⟨t, ht⟩ := execCommand_next c s
    obtain ⟨u, hrun, hu⟩ := ih (execCommand_absorbs_presentedWord hs hc ht) hcs
    rw [List.append_assoc, ← presentedWords_cons] at hu
    exact ⟨u, (runCommands_cons ht cs).trans hrun, hu⟩

theorem runCommands_keeps_absorbedMessage {rest : List Command} : ∀ {s : State}, AbsorbedMessage k0 k1 M s →
    (∀ c ∈ rest, isFin c = false) → ∃ u, runCommands rest s = .next u ∧ AbsorbedMessage k0 k1 M u := by
  induction rest with
  | nil => exact fun {s} hs _ => ⟨s, rfl, hs⟩
  | cons c cs ih =>
    intro s hs hrest
    obtain ⟨hc, hcs⟩ := List.forall_mem_cons.1 hrest
    obtain ⟨t, ht⟩ := execCommand_next c s
    obtain ⟨u, hrun, hu⟩ := ih (execCommand_keeps_absorbedMessage hs hc ht) hcs
    exact ⟨u, (runCommands_cons ht cs).trans hrun, hu⟩

theorem runCommands_append {cs : List Command} : ∀ {s : State}, runCommands cs s = .next u →
    ∀ ds, runCommands (cs ++ ds) s = runCommands ds u := by
  induction cs with
  | nil => intro s h ds; cases h; rfl
  | cons c cs ih =>
    intro s h ds
    obtain ⟨t, ht⟩ := execCommand_next c s
    rw [runCommands_cons ht] at h
    rw [List.cons_append, runCommands_cons ht, ih h]

theorem lastResponse_of_responses {R : List Response} {a : Response} (h : s.responses = R ++ [a]) :
    lastResponse s = some a := by
  rw [lastResponse, h, List.getLast?_concat]

/-- Settles O51: INIT starts with no word, the body absorbs the words it presents, CMPL closes them to the message, and
the commands before FIN leave it alone. -/
theorem digestIsSipHashOfTheBytesPresented : Obligations.DigestIsSipHashOfTheBytesPresented := by
  intro s ci cl cf body rest r w hph hkv hdi hdl hdf hbody hrest
  have hinit : Accepted .init s _ := ⟨hph, hkv, rfl⟩
  obtain ⟨a, ha, hwords⟩ := runCommands_absorbs_presentedWords (absorbedWords_of_init hinit) hbody
  have hcmpl : Accepted (.cmpl r w) a _ := ⟨hwords.ph, rfl⟩
  obtain ⟨p, hp, hmessage⟩ := runCommands_keeps_absorbedMessage (hwords.cmpl hcmpl) hrest
  have hfin : Accepted .fin p _ := ⟨hmessage.ph, rfl⟩
  obtain ⟨hidle, hresp⟩ := hmessage.fin hfin
  refine ⟨_, ?_, hidle, lastResponse_of_responses hresp⟩
  rw [runCommands_cons (execCommand_of_accepted hdi hinit), runCommands_append ha,
    runCommands_cons (execCommand_of_accepted hdl hcmpl), runCommands_append hp,
    runCommands_cons (execCommand_of_accepted hdf hfin)]
  rfl

/-! ### Runs in which every command is accepted -/

/-- The commands cs lead from s to t, each answered OK, with the data ds in order, and ERR stays
(60_exceptions.md R170). -/
structure RunsOk (cs : List Command) (s : State) (ds : List Word) (t : State) : Prop where
  run : runCommands cs s = .next t
  err : t.err = s.err
  responses : t.responses = s.responses ++ ds.map (Response.mk .ok)

theorem runsOk_nil (s : State) : RunsOk [] s [] s := ⟨rfl, rfl, (List.append_nil _).symm⟩

theorem runsOk_of_accepted (hd : decode c = .ok i) (h : Accepted i s t) {d : Word}
    (hresp : t.responses = s.responses ++ [⟨.ok, d⟩]) : RunsOk [c] s [d] t := by
  obtain ⟨-, -, herr, -⟩ := accepted_responses h
  exact ⟨runCommands_cons (execCommand_of_accepted hd h) [], herr, hresp⟩

theorem RunsOk.append {cs cs' : List Command} {ds ds' : List Word} (h : RunsOk cs s ds t) (h' : RunsOk cs' t ds' u) :
    RunsOk (cs ++ cs') s (ds ++ ds') u where
  run := (runCommands_append h.run cs').trans h'.run
  err := h'.err.trans h.err
  responses := by rw [h'.responses, h.responses, List.map_append, List.append_assoc]

/-! ### The commands of HASHW and HASHB -/

/-- Up to eight bytes are the lanes of their le64 (20_memory.md R52). -/
theorem wordBytes_le64 {B : List Byte} (h : B.length ≤ 8) : wordBytes B.length (le64 B) = B := by
  apply List.ext_getElem (wordBytes_length _ _)
  intro j _ hj
  simp only [wordBytes, List.getElem_map, List.getElem_range]
  rw [le64_extractLsb' B (by omega), List.getElem?_eq_getElem hj, Option.getD_some]

/-- Up to sixteen bytes are on the lanes of their data operand (30_encoding.md R72). -/
theorem laneBytes_dataOfBytes {B : List Byte} (h : B.length ≤ 16) : laneBytes B.length (dataOfBytes B) = B := by
  apply List.ext_getElem (by simp [laneBytes])
  intro j _ hj
  simp only [laneBytes, List.getElem_map, List.getElem_range]
  rw [lane_dataOfBytes B (by omega), List.getElem?_eq_getElem hj, Option.getD_some]

theorem decode_asmCmpw (B : List Byte) : decode (asmCmpw B) = .ok (.cmpw (le64 B)) := by
  rw [asmCmpw, decode_cmpw, lowWord_dataOfBytes]

theorem decode_asmCmpl {r : BitVec 3} {B : List Byte} (h : B.length = r.toNat) :
    decode (asmCmpl r.toNat B) = .ok (.cmpl r (le64 B)) := by
  have htail : tailWord r (le64 B) = le64 B := by rw [tailWord_eq_le64, ← h, wordBytes_le64 (by omega)]
  rw [asmCmpl, BitVec.ofNat_toNat, decode_cmpl, lowWord_dataOfBytes, htail]

/-- The full blocks of the message, in order (20_memory.md R54). -/
def blocksOf (M : List Byte) : List (List Byte) := (List.range (fullWords M)).map (blockBytes M)

theorem length_blocksOf (M : List Byte) : (blocksOf M).length = M.length / 8 := by simp [blocksOf, fullWords]

theorem length_of_mem_blocksOf {B : List Byte} (h : B ∈ blocksOf M) : B.length = 8 := by
  obtain ⟨j, hj, rfl⟩ := List.mem_map.1 h
  obtain ⟨-, hblock, -, -⟩ := messageIsReadOnceInOrder M
  exact (hblock j (List.mem_range.1 hj)).2

theorem flatMap_wordBytes_le64 {Bs : List (List Byte)} (h : ∀ B ∈ Bs, B.length = 8) :
    (Bs.map le64).flatMap (wordBytes 8) = Bs.flatten := by
  induction Bs with
  | nil => rfl
  | cons B Bs ih =>
    obtain ⟨hB, hBs⟩ := List.forall_mem_cons.1 h
    have hbytes : wordBytes 8 (le64 B) = B := hB ▸ wordBytes_le64 hB.le
    rw [List.map_cons, List.flatMap_cons, hbytes, ih hBs, List.flatten_cons]

/-- The words and the tail that HASHW presents are the message's own bytes (44_system_and_composite.md R152). -/
theorem messageOf_blocksOf {r : BitVec 3} (hr : r.toNat = M.length % 8) :
    messageOf ((blocksOf M).map le64) r (le64 (tailOf M)) = M := by
  obtain ⟨hread, -, -, htail⟩ := messageIsReadOnceInOrder M
  have hbytes : wordBytes r.toNat (le64 (tailOf M)) = tailOf M := by
    rw [hr, ← htail, wordBytes_le64 (by omega)]
  rw [messageOf, flatMap_wordBytes_le64 fun _ => length_of_mem_blocksOf, hbytes, blocksOf, ← List.flatMap_def, hread]

theorem hashCommands_eq (M : List Byte) :
    hashCommands M = [encode .init] ++ ((blocksOf M).map asmCmpw ++
      ([asmCmpl (M.length % 8) (tailOf M)] ++ [encode .fin])) := by
  rw [blocksOf, List.map_map]; rfl

theorem length_hashCommands (M : List Byte) : (hashCommands M).length = M.length / 8 + 3 := by
  simp [hashCommands_eq, length_blocksOf]

/-- In ABSORB every CMPW is accepted, and absorbs the le64 of its bytes. -/
theorem AbsorbedWords.runsOk_cmpw {Bs : List (List Byte)} : ∀ {W : List Word} {s : State}, AbsorbedWords k0 k1 W s →
    ∃ u, RunsOk (Bs.map asmCmpw) s (List.replicate Bs.length 0) u ∧ AbsorbedWords k0 k1 (W ++ Bs.map le64) u := by
  induction Bs with
  | nil => exact fun {W s} hs => ⟨s, runsOk_nil s, (List.append_nil W).symm ▸ hs⟩
  | cons B Bs ih =>
    intro W s hs
    have hacc : Accepted (.cmpw (le64 B)) s _ := ⟨hs.ph, rfl⟩
    obtain ⟨u, hrun, hu⟩ := ih (hs.cmpw hacc)
    rw [List.append_assoc] at hu
    exact ⟨u, (runsOk_of_accepted (decode_asmCmpw B) hacc rfl).append hrun, hu⟩

theorem replicate_add_two_append (n : Nat) (ds : List Word) :
    List.replicate (n + 2) 0 ++ ds = [0] ++ (List.replicate n 0 ++ ([0] ++ ds)) := by
  rw [List.replicate_succ, List.replicate_succ', List.cons_append, List.append_assoc]; rfl

/-- From INIT on HASHW and HASHB are the same commands: with a key loaded each is accepted, and FIN answers the digest
(44_system_and_composite.md R152, R153). -/
theorem runsOk_hashCommands (M : List Byte) (hph : s.ph = .idle) (hkv : s.kv = true) :
    ∃ u, RunsOk (hashCommands M) s (List.replicate (M.length / 8 + 2) 0 ++ [sipHash24 s.k0 s.k1 M]) u ∧
      u.ph = .idle := by
  obtain ⟨r, hr⟩ : ∃ r : BitVec 3, r.toNat = M.length % 8 := ⟨BitVec.ofNat 3 M.length, BitVec.toNat_ofNat _ _⟩
  obtain ⟨-, -, -, htail⟩ := messageIsReadOnceInOrder M
  have hinit : Accepted .init s _ := ⟨hph, hkv, rfl⟩
  obtain ⟨a, hcmpw, hwords⟩ := (absorbedWords_of_init hinit).runsOk_cmpw (Bs := blocksOf M)
  have hcmpl : Accepted (.cmpl r (le64 (tailOf M))) a _ := ⟨hwords.ph, rfl⟩
  have hmessage := hwords.cmpl hcmpl
  rw [List.nil_append, messageOf_blocksOf hr] at hmessage
  have hfin : Accepted .fin _ _ := ⟨hmessage.ph, rfl⟩
  obtain ⟨hidle, hresp⟩ := hmessage.fin hfin
  have hrun := (runsOk_of_accepted (decode_init 0) hinit rfl).append (hcmpw.append
    ((runsOk_of_accepted (decode_asmCmpl (htail.trans hr.symm)) hcmpl rfl).append
      (runsOk_of_accepted (decode_fin 0) hfin hresp)))
  rw [length_blocksOf, hr] at hrun
  rw [hashCommands_eq, replicate_add_two_append]
  exact ⟨_, hrun, hidle⟩

/-- An accepted key load and the commands from INIT on: q + 3 responses OK without data, then the digest under the key
loaded (44_system_and_composite.md R156). -/
theorem runsOk_key_hashCommands (M : List Byte) (hd : decode c = .ok i)
    (hacc : Accepted i s (respond .ok 0 (loadKey k0 k1 s))) (hph : s.ph = .idle) :
    ∃ u, RunsOk (c :: hashCommands M) s (List.replicate (M.length / 8 + 3) 0 ++ [sipHash24 k0 k1 M]) u ∧
      u.ph = .idle := by
  obtain ⟨u, hrun, hidle⟩ := runsOk_hashCommands (s := respond .ok 0 (loadKey k0 k1 s)) M hph rfl
  exact ⟨u, (runsOk_of_accepted hd hacc rfl).append hrun, hidle⟩

theorem RunsOk.responses_replicate {cs : List Command} {n : Nat} {d : Word}
    (h : RunsOk cs s (List.replicate n 0 ++ [d]) t) :
    t.responses = s.responses ++ List.replicate n ⟨.ok, 0⟩ ++ [⟨.ok, d⟩] := by
  rw [h.responses, List.map_append, List.map_replicate, List.append_assoc]; rfl

/-- Settles O52: KEYW is accepted in IDLE and loads the key. -/
theorem hashwAnswersSipHash : Obligations.HashwAnswersSipHash := by
  intro k0 k1 M s hph
  have hacc : Accepted (.keyw k0 k1) s (respond .ok 0 (loadKey k0 k1 s)) := ⟨hph, rfl⟩
  obtain ⟨u, hrun, hidle⟩ := runsOk_key_hashCommands M (decodeOfEncodeIsTheInstruction _ rfl) hacc hph
  refine ⟨?_, u, hrun.run, hidle, hrun.err, hrun.responses_replicate⟩
  rw [hashw, List.length_cons, length_hashCommands]

/-! ### The key of HASHB -/

theorem hashb_of_ok {KB : List Byte} (h : execCommand (hashbKey KB) s = .next t)
    (hok : (lastResponse t).map Response.code = some .ok) (M : List Byte) :
    hashb KB M s = runCommands (hashbKey KB :: hashCommands M) s := by
  rw [hashb, runCommands_cons h, h]
  exact if_pos hok

theorem hashb_of_exception {KB : List Byte} {e : Exception} {h : Hdr}
    (he : execCommand (hashbKey KB) s = .next (takeException e h s)) (M : List Byte) :
    hashb KB M s = .next (takeException e h s) := by
  have hlast : lastResponse (takeException e h s) = some ⟨.exception e, h.setWidth 64⟩ := lastResponse_of_responses rfl
  rw [hashb, he]
  exact if_neg (by simp [hlast])

/-- The number of bytes in the header of HASHB's KEYB, as the byte n (44_system_and_composite.md R153). -/
theorem toNat_ofNat_min_length (KB : List Byte) : (BitVec.ofNat 8 (min KB.length 255)).toNat = min KB.length 255 := by
  rw [BitVec.toNat_ofNat, Nat.mod_eq_of_lt (by omega)]

theorem decode_hashbKey (KB : List Byte) : decode (hashbKey KB) = .ok (.keyb (BitVec.ofNat 8 (min KB.length 255))
    (keyLanes (BitVec.ofNat 8 (min KB.length 255)) (dataOfBytes (KB.take 16)))) := by
  have hdecode := decode_asmKeyb (BitVec.ofNat 8 (min KB.length 255)) (KB.take 16)
  rwa [toNat_ofNat_min_length] at hdecode

theorem ofNat_min_length_ne_sixteen {KB : List Byte} (h : KB.length ≠ 16) :
    BitVec.ofNat 8 (min KB.length 255) ≠ 16 := by
  intro heq
  have hmin := toNat_ofNat_min_length KB
  rw [heq] at hmin
  have hsixteen : (16 : Byte).toNat = 16 := rfl
  omega

/-- The sixteen key bytes are loaded little-endian, eight to a word (40_key.md R101). -/
theorem accepted_hashbKey {KB : List Byte} (h : KB.length = 16) (hph : s.ph = .idle) :
    ∃ i, decode (hashbKey KB) = .ok i ∧
      Accepted i s (respond .ok 0 (loadKey (le64 (KB.take 8)) (le64 (KB.drop 8)) s)) := by
  have hlanes : laneBytes 16 (dataOfBytes KB) = KB := h ▸ laneBytes_dataOfBytes h.le
  have hdecode : decode (hashbKey KB) = .ok (.keyb 16 (dataOfBytes KB)) := by
    rw [decode_hashbKey, h, List.take_of_length_le h.le]; rfl
  have hlow := le64_take_laneBytes (dataOfBytes KB)
  have hhigh := le64_drop_laneBytes (dataOfBytes KB)
  rw [hlanes] at hlow hhigh
  exact ⟨_, hdecode, hph, rfl, by rw [hlow, hhigh]⟩

/-- Settles O53: sixteen bytes are an accepted key load, and any other number reaches KEYB as an n that is not 16. -/
theorem hashbAnswersSipHashOrInvalidKeyLength : Obligations.HashbAnswersSipHashOrInvalidKeyLength := by
  refine fun KB M s hph => ⟨fun hlen => ?_, fun hlen => ?_⟩
  · obtain ⟨i, hd, hacc⟩ := accepted_hashbKey hlen hph
    obtain ⟨u, hrun, hidle⟩ := runsOk_key_hashCommands M hd hacc hph
    have hok := hashb_of_ok (execCommand_of_accepted hd hacc) (by rw [lastResponse_of_responses rfl]; rfl) M
    exact ⟨u, hok.trans hrun.run, hidle, hrun.err, hrun.responses_replicate⟩
  · have hrefused := execCommand_of_decode (decode_hashbKey KB) s
    rw [exec_keyb_of_ne_sixteen hph (ofNat_min_length_ne_sixteen hlen)] at hrefused
    have hcount : (BitVec.ofNat 8 (min KB.length 255)).setWidth 64 = BitVec.ofNat 64 (min KB.length 255) := by
      rw [← BitVec.ofNat_toNat, toNat_ofNat_min_length]
    rw [hashb_of_exception hrefused, takeException, setWidth_hdr_keyb, hcount]; rfl

end Sys2Proof.Machine
end

section
/-! PROOFS. The statements of 60_exceptions.md: the table of preconditions, the order of the exceptions, what taking one
does, on what it depends, and the control invariant. -/

namespace Sys2Proof.Machine

/-! ### What every step keeps -/

/-- A property holds after a step if it does not depend on the host's list, holds after reset, and is kept by refusals and
by accepted commands. -/
theorem step_keeps {P : State → Prop} (hpending : ∀ {s : State} (p : List HostEvent), P s → P { s with pending := p })
    (hreset : ∀ s, P (takeReset s)) (hrefused : ∀ {s : State} (e : Exception) (h : Hdr), P s → P (takeException e h s))
    (haccepted : ∀ {i : Instr} {s t : State}, Accepted i s t → P s → P t) {s t : State} (hs : P s)
    (hstep : step s = .next t) : P t := by
  obtain ⟨-, h⟩ | ⟨rest, -, h⟩ | ⟨c, rest, -, h⟩ := step_cases s <;> rw [h] at hstep
  · cases hstep; exact hs
  · cases hstep; exact hreset _
  · obtain ⟨e, -, rfl⟩ | ⟨-, i, -, hacc⟩ := execCommand_inv hstep
    · exact hrefused e c.hdr (hpending rest hs)
    · exact haccepted hacc (hpending rest hs)

/-- The first half of `ControlInv`: outside IDLE a key is loaded (60_exceptions.md R172). -/
def KeyedOutsideIdle (s : State) : Prop := s.ph ≠ .idle → s.kv = true

/-- The second half of `ControlInv`: in ABSORB LEN8 is a multiple of 8 (43_pad_final.md R142). -/
def AbsorbsFullWords (s : State) : Prop := s.ph = .absorb → s.len8.toNat % 8 = 0

theorem controlInv_iff (s : State) : ControlInv s ↔ KeyedOutsideIdle s ∧ AbsorbsFullWords s := Iff.rfl

/-- Only INIT leaves IDLE, and it needs a key; no command clears KV (10_state.md R23, R24). -/
theorem accepted_keeps_keyedOutsideIdle {i : Instr} {s t : State} (h : Accepted i s t) (hs : KeyedOutsideIdle s) :
    KeyedOutsideIdle t := by
  cases i with
  | keyw => obtain ⟨-, rfl⟩ := h; exact fun _ => rfl
  | keyb => obtain ⟨-, -, rfl⟩ := h; exact fun _ => rfl
  | init => obtain ⟨-, hkv, rfl⟩ := h; exact fun _ => hkv
  | cmpw => obtain ⟨-, rfl⟩ := h; exact hs
  | cmpl => obtain ⟨hph, rfl⟩ := h; exact fun _ => hs (hph ▸ nofun)
  | fin => obtain ⟨-, rfl⟩ := h; exact fun hne => absurd rfl hne
  | stat => subst h; exact hs

/-- INIT sets LEN8 to 0 and CMPW adds 8 modulo 256; the other accepted commands end outside ABSORB or change nothing. -/
theorem accepted_keeps_absorbsFullWords {i : Instr} {s t : State} (h : Accepted i s t) (hs : AbsorbsFullWords s) :
    AbsorbsFullWords t := by
  cases i with
  | keyw => obtain ⟨-, rfl⟩ := h; exact hs
  | keyb => obtain ⟨-, -, rfl⟩ := h; exact hs
  | init => obtain ⟨-, -, rfl⟩ := h; exact fun _ => rfl
  | cmpw m =>
    obtain ⟨hph, rfl⟩ := h
    intro _
    have hbefore : s.len8.toNat % 8 = 0 := hs hph
    have hafter : (s.len8 + 8).toNat = (s.len8.toNat + 8) % 256 := BitVec.toNat_add _ _
    exact (congrArg (· % 8) hafter).trans (by omega)
  | cmpl => obtain ⟨-, rfl⟩ := h; exact nofun
  | fin => obtain ⟨-, rfl⟩ := h; exact nofun
  | stat => subst h; exact hs

theorem step_keeps_keyedOutsideIdle {s t : State} (hs : KeyedOutsideIdle s) (h : step s = .next t) :
    KeyedOutsideIdle t :=
  step_keeps (fun _ hs => hs) (fun _ hne => absurd rfl hne) (fun _ _ hs => hs) accepted_keeps_keyedOutsideIdle hs h

theorem step_keeps_absorbsFullWords {s t : State} (hs : AbsorbsFullWords s) (h : step s = .next t) :
    AbsorbsFullWords t :=
  step_keeps (fun _ hs => hs) (fun _ => nofun) (fun _ _ hs => hs) accepted_keeps_absorbsFullWords hs h

/-- Settles O46: each half of the invariant is kept by every step on its own. -/
theorem everyStepKeepsControlInv : Obligations.EveryStepKeepsControlInv := by
  intro s t hs h
  obtain ⟨hkey, hlen⟩ := (controlInv_iff s).1 hs
  exact (controlInv_iff t).2 ⟨step_keeps_keyedOutsideIdle hkey h, step_keeps_absorbsFullWords hlen h⟩

/-! ### The table of preconditions -/

/-- A cell with a phase: the command is accepted and leads to that phase. -/
theorem accepted_of_tableEntry_ok {i : Instr} {s : State} {p : Phase} (h : tableEntry i s.ph s.kv = .ok p) :
    ∃ t, Accepted i s t ∧ t.ph = p := by
  generalize hph : s.ph = ph, hkv : s.kv = kv at h
  cases i with
  | keyw => cases ph <;> cases h; exact ⟨_, ⟨hph, rfl⟩, hph⟩
  | keyb n kb =>
    cases ph with
    | idle =>
      rw [tableEntry] at h
      split at h <;> cases h
      next hn => exact ⟨_, ⟨hph, hn, rfl⟩, hph⟩
    | absorb | padded => cases h
  | init => cases ph <;> cases kv <;> cases h; exact ⟨_, ⟨hph, hkv, rfl⟩, rfl⟩
  | cmpw => cases ph <;> cases h; exact ⟨_, ⟨hph, rfl⟩, hph⟩
  | cmpl => cases ph <;> cases h; exact ⟨_, ⟨hph, rfl⟩, rfl⟩
  | fin => cases ph <;> cases h; exact ⟨_, ⟨hph, rfl⟩, rfl⟩
  | stat => cases h; exact ⟨_, rfl, hph⟩

/-- A cell with an exception: the command is refused with it. -/
theorem exec_of_tableEntry_error {i : Instr} {s : State} {e : Exception} (h : tableEntry i s.ph s.kv = .error e) :
    exec i s = .next (takeException e i.hdr s) := by
  generalize hph : s.ph = ph, hkv : s.kv = kv at h
  cases i with
  | keyw k0 k1 => cases ph <;> cases h <;> exact exec_keyw_of_ne_idle (hph ▸ nofun) k0 k1
  | keyb n kb =>
    cases ph with
    | idle =>
      rw [tableEntry] at h
      split at h <;> cases h
      next hn => exact exec_keyb_of_ne_sixteen hph hn kb
    | absorb | padded => cases h; exact exec_keyb_of_ne_idle (hph ▸ nofun) n kb
  | init => cases ph <;> cases kv <;> cases h <;> exact exec_init_of_not_ready (by simp [hph, hkv])
  | cmpw m => cases ph <;> cases h <;> exact exec_cmpw_of_ne_absorb (hph ▸ nofun) m
  | cmpl r t => cases ph <;> cases h <;> exact exec_cmpl_of_ne_absorb (hph ▸ nofun) r t
  | fin => cases ph <;> cases h <;> exact exec_fin_of_ne_padded (hph ▸ nofun)
  | stat => cases h

/-- KEYW and KEYB of sixteen bytes, once accepted, set KV (40_key.md R100, R101). -/
theorem kv_of_key_load {k0 k1 : Word} {kb : Data} {s t : State} (hph : s.ph = .idle)
    (h : exec (.keyw k0 k1) s = .next t ∨ exec (.keyb 16 kb) s = .next t) : t.kv = true := by
  obtain h | h := h
  · have hacc : Accepted (.keyw k0 k1) s _ := ⟨hph, rfl⟩
    cases h.symm.trans (exec_of_accepted hacc); rfl
  · have hacc : Accepted (.keyb 16 kb) s _ := ⟨hph, rfl, rfl⟩
    cases h.symm.trans (exec_of_accepted hacc); rfl

/-- Settles O27: a cell names the accepted command's phase or the refusal, an illegal header is refused by the decoder, and
KV = 0 outside IDLE is ruled out step by step. -/
theorem sequenceTable : Obligations.SequenceTable := by
  refine ⟨fun i s => ?_, fun c x s hd => ?_, fun _ _ _ _ _ => kv_of_key_load, reset_ph,
    fun _ _ => step_keeps_keyedOutsideIdle⟩
  · cases hcell : tableEntry i s.ph s.kv with
    | ok p =>
      obtain ⟨t, hacc, hp⟩ := accepted_of_tableEntry_ok hcell
      obtain ⟨d, hresp, -⟩ := accepted_responses hacc
      refine ⟨t, ⟨.ok, d⟩, exec_of_accepted hacc, hresp, fun q hq => ?_, nofun⟩
      cases hq; exact ⟨rfl, hp⟩
    | error e =>
      refine ⟨_, ⟨.exception e, i.hdr.setWidth 64⟩, exec_of_tableEntry_error hcell, rfl, nofun, fun e' he' => ?_⟩
      cases he'; exact ⟨rfl, rfl⟩
  · exact ⟨_, _, execCommand_of_decode_error hd s, rfl, rfl, rfl⟩

/-! ### Refusals -/

/-- A command answers with an exception exactly when that is the first that applies, and the data is its header
(60_exceptions.md R175). -/
theorem answers_exception_iff {c : Command} {s : State} {e : Exception} {d : Word} :
    Answers c s ⟨.exception e, d⟩ ↔ firstException c s.ph s.kv = some e ∧ d = c.hdr.setWidth 64 := by
  constructor
  · intro h
    cases he : firstException c s.ph s.kv with
    | some e' => cases answers_of_firstException he h; exact ⟨rfl, rfl⟩
    | none =>
      obtain ⟨_, _, -, hr, -⟩ := answers_of_firstException_none he h
      cases hr
  · rintro ⟨he, rfl⟩
    exact ⟨_, execCommand_of_firstException he, rfl⟩

/-- Settles O28: `execCommand_cases` splits commands by their first exception. -/
theorem firstExceptionIsReported : Obligations.FirstExceptionIsReported := by
  intro c s
  obtain ⟨t, ht, ⟨e, he, rfl⟩ | ⟨hnone, i, -, hacc⟩⟩ := execCommand_cases c s
  · refine ⟨_, c.hdr.setWidth 64, ht, fun e' he' => ?_, fun hnone => ?_⟩
    · cases he.symm.trans he'; exact ⟨rfl, rfl⟩
    · cases he.symm.trans hnone
  · obtain ⟨d, hresp, herr, -⟩ := accepted_responses hacc
    refine ⟨t, d, ht, fun e he => ?_, fun _ => ⟨hresp, herr⟩⟩
    cases hnone.symm.trans he

/-- Settles O29: a command answered with an exception has taken that exception. -/
theorem exceptionChangesOnlyErr : Obligations.ExceptionChangesOnlyErr := by
  intro c s t e d h hresp
  obtain ⟨he, rfl⟩ := answers_exception_iff.1 ⟨t, h, hresp⟩
  cases h.symm.trans (execCommand_of_firstException he)
  exact ⟨rfl, rfl⟩

/-! ### InvalidKeyLength -/

/-- KEYB has no illegal header (30_encoding.md R74). -/
theorem decode_of_opField_two {c : Command} (h : opField c.hdr = 2) :
    decode c = .ok (.keyb (argField c.hdr) (keyLanes (argField c.hdr) c.data)) := by
  have hhdr := (selects_keyb_iff c.hdr).1 ((selects_keyb_iff_opField c.hdr).2 h)
  have hdec := decode_keyb (argField c.hdr) c.data
  rwa [← hhdr] at hdec

theorem fields_of_decode_keyb {c : Command} {n : Byte} {kb : Data} (hd : decode c = .ok (.keyb n kb)) :
    opField c.hdr = 2 ∧ argField c.hdr = n := by
  rw [← hdr_of_decode hd]
  exact fields_keyb n

/-- The third check of 60_exceptions.md R174, on the decoded command. -/
theorem firstException_eq_invalidKeyLength_iff {c : Command} {ph : Phase} {kv : Bool} :
    firstException c ph kv = some .invalidKeyLength ↔
      ∃ n kb, decode c = .ok (.keyb n kb) ∧ n ≠ 16 ∧ ph = .idle := by
  unfold firstException
  cases decode c with
  | error => simp
  | ok i =>
    cases i with
    | keyb n kb => cases ph <;> simp [precondition]
    | keyw | init | cmpw | cmpl | fin | stat => simp

/-- The same on the header: KEYB is told by its opcode, n is its argument (30_encoding.md R75). -/
theorem firstException_eq_invalidKeyLength_iff_fields (c : Command) (ph : Phase) (kv : Bool) :
    firstException c ph kv = some .invalidKeyLength ↔ opField c.hdr = 2 ∧ argField c.hdr ≠ 16 ∧ ph = .idle := by
  rw [firstException_eq_invalidKeyLength_iff]
  constructor
  · rintro ⟨n, kb, hd, hn, hph⟩
    obtain ⟨hop, rfl⟩ := fields_of_decode_keyb hd
    exact ⟨hop, hn, hph⟩
  · rintro ⟨hop, hn, hph⟩
    exact ⟨_, _, decode_of_opField_two hop, hn, hph⟩

/-- Settles O30: the condition is that of the third check of 60_exceptions.md R174, and what the refusal leaves is O29. -/
theorem invalidKeyLengthOnlyFromKeyb : Obligations.InvalidKeyLengthOnlyFromKeyb := by
  refine ⟨fun c s => ?_, fun c s t d h hresp => ?_⟩
  · simp only [answers_exception_iff, exists_and_left, exists_eq, and_true]
    exact firstException_eq_invalidKeyLength_iff_fields c s.ph s.kv
  · obtain ⟨rfl, rfl⟩ := exceptionChangesOnlyErr c s t _ d h hresp
    rfl

/-! ### On what the code depends -/

/-- In every branch of the decoder the data fills operands only, and no check looks at those (60_exceptions.md R170,
R173). -/
theorem firstException_eq_of_hdr (h : Hdr) (d d' : Data) (ph : Phase) (kv : Bool) :
    firstException ⟨h, d⟩ ph kv = firstException ⟨h, d'⟩ ph kv := by
  unfold firstException decode
  dsimp only
  split_ifs <;> rfl

/-- The response code is that of the first exception, or OK. -/
theorem code_of_answers {c : Command} {s : State} {r : Response} (h : Answers c s r) :
    r.code = (firstException c s.ph s.kv).elim .ok .exception := by
  cases he : firstException c s.ph s.kv with
  | some e => rw [answers_of_firstException he h]; rfl
  | none =>
    obtain ⟨_, _, -, rfl, -⟩ := answers_of_firstException_none he h
    rfl

/-- Settles O31: the first exception that applies depends on the header, PH and KV. -/
theorem codeDependsOnHeaderPhaseAndKeyValidOnly : Obligations.CodeDependsOnHeaderPhaseAndKeyValidOnly := by
  intro h d d' s s' r r' hph hkv hr hr'
  rw [code_of_answers hr, code_of_answers hr', hph, hkv, firstException_eq_of_hdr h d d']

/-! ### STATUS under the control invariant -/

theorem phase_code_ne_three (ph : Phase) : ph.code ≠ 3 := by
  cases ph <;> decide

/-- Settles O24: bits 1:0 of STATUS are the code of PH, bit 2 is KV. -/
theorem statusNeverShowsAnOpenPhaseWithoutKey : Obligations.StatusNeverShowsAnOpenPhaseWithoutKey := by
  rintro s ⟨hkey, -⟩
  obtain ⟨hph, hkv, -⟩ := statusFieldsAreWhereTheTableSays s
  rw [hph, hkv]
  refine ⟨phase_code_ne_three s.ph, fun hno => ?_⟩
  have hidle : s.ph = .idle := by
    by_contra hne
    cases hno.symm.trans (hkey hne)
  rw [hidle]; rfl

/-! ### The step -/

/-- Settles O41: the step presents the command, and the decoder refuses it. -/
theorem stepRefusesIllegalCommand : Obligations.StepRefusesIllegalCommand :=
  fun _ _ _ _ hpend hd => (step_of_pending_command hpend).trans (execCommand_of_decode_error hd _)

/-- Settles O42: with an empty host list there is nothing to fetch. -/
theorem idleEngineKeepsItsState : Obligations.IdleEngineKeepsItsState := fun _ => step_of_pending_nil

end Sys2Proof.Machine
end

section
/-! PROOFS. The statements of 70_reset_and_hazards.md: what reset does, what only reset does, and that the engine never stops
by itself. -/

namespace Sys2Proof.Machine

/-! ### What no command undoes -/

/-- Bits that are or-ed in clear none of those that were set. -/
theorem and_or_absorb {w : Nat} (a b : BitVec w) : a &&& (a ||| b) = a := by
  ext i hi
  rw [BitVec.getElem_and, BitVec.getElem_or]
  exact inf_sup_self

section
variable {c : Command} {s t : State}

/-- ERR is sticky: a command only sets bits of it (10_state.md R26). -/
theorem execCommand_err_subset (h : execCommand c s = .next t) : s.err &&& t.err = s.err := by
  obtain ⟨b, herr, -⟩ := errIsStickyAndInert c s t h
  rw [herr, and_or_absorb]

/-- A command leaves KV or, as an accepted key load, sets it (10_state.md R23). -/
theorem execCommand_keeps_kv (h : execCommand c s = .next t) (hkv : s.kv = true) : t.kv = true := by
  obtain ⟨hnone, hsome⟩ := onlyAcceptedKeyLoadsWriteTheKey c s t h
  cases hkey : acceptedKey c s with
  | none =>
    obtain ⟨-, -, hsame⟩ := hnone hkey
    exact hsame.trans hkv
  | some k =>
    obtain ⟨-, -, -, hset⟩ := hsome _ _ hkey
    exact hset

/-- A command leaves ABSORB only for PADDED (10_state.md R24). -/
theorem execCommand_of_absorb (h : execCommand c s = .next t) (hph : s.ph = .absorb) :
    t.ph = .absorb ∨ t.ph = .padded := by
  by_cases hsame : t.ph = s.ph
  · exact .inl (hsame.trans hph)
  obtain ⟨hidle, -⟩ | ⟨-, hpad, -⟩ | ⟨hpad, -⟩ := (phaseTransitions.1 c s t h).1 hsame
  · cases hph.symm.trans hidle
  · exact .inr hpad
  · cases hph.symm.trans hpad

/-- FIN accepted is the way from PADDED to IDLE, and it answers the digest (43_pad_final.md R143). -/
theorem execCommand_of_padded (h : execCommand c s = .next t) (hph : s.ph = .padded) :
    t.ph = .padded ∨ (t.ph = .idle ∧ t.responses = s.responses ++ [⟨.ok, digestOf s.v⟩]) := by
  by_cases hsame : t.ph = s.ph
  · exact .inl (hsame.trans hph)
  obtain ⟨hidle, -⟩ | ⟨habs, -⟩ | ⟨-, hidle, hfin⟩ := (phaseTransitions.1 c s t h).1 hsame
  · cases hph.symm.trans hidle
  · cases hph.symm.trans habs
  · cases h.symm.trans (execCommand_of_accepted hfin ⟨hph, rfl⟩)
    exact .inr ⟨hidle, rfl⟩

end

/-- Settles O38: a step that is not a reset does nothing or presents a command, and no command clears ERR or KV or abandons a
computation. -/
theorem onlyResetClearsOrAbandons : Obligations.OnlyResetClearsOrAbandons := by
  intro s t hstep hne
  obtain ⟨-, h⟩ | ⟨rest, hpend, -⟩ | ⟨c, rest, -, h⟩ := step_cases s
  · cases h.symm.trans hstep
    exact ⟨BitVec.and_self, id, .inl, .inl⟩
  · exact absurd (congrArg List.head? hpend) hne
  · have hcmd := h.symm.trans hstep
    have herr := execCommand_err_subset hcmd
    have hkv := execCommand_keeps_kv hcmd
    have habsorb := execCommand_of_absorb hcmd
    have hpadded := execCommand_of_padded hcmd
    exact ⟨herr, hkv, habsorb, hpadded⟩

/-! ### The engine never stops -/

/-- A step takes one host event, if there is one (20_memory.md R59). -/
theorem step_pending {s t : State} (h : step s = .next t) : t.pending = s.pending.tail := by
  obtain ⟨hpend, hs⟩ | ⟨rest, hpend, hs⟩ | ⟨c, rest, hpend, hs⟩ := step_cases s <;> rw [hpend]
  · cases hs.symm.trans h; exact hpend
  · cases hs.symm.trans h; rfl
  · exact execCommand_pending (hs.symm.trans h)

/-- As many steps as there are host events take all of them, by induction on the events. -/
theorem run_takes_all_events {p : List HostEvent} : ∀ {s : State}, s.pending = p →
    ∃ t : State, Sys2Proof.core.run p.length s = .next t ∧ t.pending = [] := by
  induction p with
  | nil => exact fun {s} hpend => ⟨s, rfl, hpend⟩
  | cons e rest ih =>
    intro s hpend
    obtain ⟨u, hu⟩ := step_next s
    have hrest : u.pending = rest := by rw [step_pending hu, hpend, List.tail_cons]
    rw [List.length_cons, run_succ_of_step hu]
    exact ih hrest

/-- Settles O43: no exception stops the engine, and each step takes one event. -/
theorem engineNeverStops : Obligations.EngineNeverStops := ⟨step_next, fun _ => run_takes_all_events rfl⟩

/-! ### Reset -/

/-- Settles O37: the registers left unspecified are those `takeReset` draws. -/
theorem resetEventClearsControlState : Obligations.ResetEventClearsControlState :=
  fun _ _ hpend => ⟨_, _, _, _, _, step_of_pending_reset hpend⟩

end Sys2Proof.Machine
end
